-- ==== Sys2Proof/Word.lean ====
section
/-! DEFINITION. Sys2Proof/Word.lean: the fixed widths of the engine's words (spec/00_scope.md R9), each an `abbrev`. -/

namespace Sys2Proof

/-- The 35-bit command word `cmd[34:0]` (R82; `CMD_W = 35`, R9). -/
abbrev CmdWord := BitVec 35

/-- The 4-bit response word `rsp[3:0]` (R88; `RSP_W = 4`, R9). -/
abbrev RspWord := BitVec 4

/-- The `pc` operand of a command (R38, R89; `PC_W = 32`, R9). -/
abbrev Pc := BitVec 32

/-- What a history register holds: an unsigned integer below `2^HIST_W`, newest outcome in bit 0 (R27, R28). A number
and not a bit vector of one width, because `HIST_W` is a parameter of the machine (`Config.histW`, R9; assumption 9):
`shiftIn` drops what leaves the register. -/
abbrev History := Nat

/-- One index-bit field of `INIT`, and the register it is stored in: 6 bits (R23, R83). -/
abbrev WidthReg := BitVec 6

/-- One saturating-counter cell: `CTR_W = 2` bits (R110). -/
abbrev Counter := BitVec 2

/-- A tag, kept in 32 bits of which only the low `T` can be set (R35, R163). -/
abbrev Tag := BitVec 32

/-- The number of a way, and the content of an LRU cell: one bit (R35; `WAYS = 2`, R9). -/
abbrev WayNo := BitVec 1

end Sys2Proof
end

