-- ==== Sys2Proof/Syntax.lean ====
section
/-! DEFINITION. Sys2Proof/Syntax.lean: the commands, one constructor per row of spec/opcode_table.json (R87), their
operands, and the assembler's lines with its two pseudo-commands (R95, R96). -/

namespace Sys2Proof

/-- The two values of a branch outcome and of a prediction (R15, R86). -/
inductive Direction where
  | notTaken
  | taken
deriving DecidableEq, Repr

/-- The four strategies (R15, R85). -/
inductive Strategy where
  | static
  | gshare
  | tournament
  | custom
deriving DecidableEq, Repr

/-- The five index-bit widths an `INIT` carries and the engine stores, 6 bits each (R7, R23, R83). -/
structure Widths where
  /-- `G`, globalHistoryBits. -/
  g : WidthReg
  /-- `L`, localHistoryBits. -/
  l : WidthReg
  /-- `C`, customHistoryBits. -/
  c : WidthReg
  /-- `K`, customCacheBits. -/
  k : WidthReg
  /-- `T`, customCacheTagBits. -/
  t : WidthReg
deriving DecidableEq, Repr

/-- The commands: one constructor per row of the opcode map (R87). -/
inductive Instr where
  /-- `INIT.STATIC g, l, c, k, t` (R190, R193). -/
  | initStatic (p : Widths)
  /-- `INIT.GSHARE g, l, c, k, t` (R190, R131). -/
  | initGshare (p : Widths)
  /-- `INIT.TOURNAMENT g, l, c, k, t` (R190, R143). -/
  | initTournament (p : Widths)
  /-- `INIT.CUSTOM g, l, c, k, t` (R190, R165). -/
  | initCustom (p : Widths)
  /-- `INIT` with an unrecognised 3-bit strategy code, 4 to 7 (R85, R211). -/
  | initUnrecognised (strat : BitVec 3) (p : Widths)
  /-- `PREDICT pc` (R194). -/
  | predict (pc : Pc)
  /-- `TRAIN pc, o` (R196). -/
  | train (pc : Pc) (o : Direction)
  /-- `TEARDOWN` (R199). -/
  | teardown
deriving DecidableEq, Repr

/-- One line of the assembler of R95, its numbers not yet range-checked: the four commands and the two
pseudo-commands of R96. -/
inductive AsmLine where
  /-- `INIT <strategy>, <G>, <L>, <C>, <K>, <T>`, the strategy as its number 0 to 7. -/
  | init (strategy g l c k t : Nat)
  /-- `INIT.DEFAULT <strategy>` (pseudo). -/
  | initDefault (strategy : Nat)
  /-- `PREDICT <pc>`. -/
  | predict (pc : Nat)
  /-- `TRAIN <pc>, <outcome>`. -/
  | train (pc : Nat) (o : Direction)
  /-- `BRANCH <pc>, <outcome>` (pseudo). -/
  | branch (pc : Nat) (o : Direction)
  /-- `TEARDOWN`. -/
  | teardown
deriving DecidableEq, Repr

end Sys2Proof
end

