-- ==== Sys2Proof/WellFormed.lean ====
section
/-! DEFINITION. Sys2Proof/WellFormed.lean: which terms of `Instr` a command word can encode. Every operand but one has
exactly the width of its field, so that every value of it is encodable (R89); the one check is on the strategy code
of an unrecognised `INIT`, whose row fixes `strat[2] = 1` (R85, R87). -/

namespace Sys2Proof

/-- `i` is the reading of some command word. The widths of an `INIT` are not checked here: they are judged by the
`INIT` rule, not by the decoder (R93). -/
def WellFormed (i : Instr) : Bool :=
  match i with
  | .initStatic _ => true
  | .initGshare _ => true
  | .initTournament _ => true
  | .initCustom _ => true
  | .initUnrecognised strat _ => decide (4 ≤ strat.toNat)
  | .predict _ => true
  | .train _ _ => true
  | .teardown => true

end Sys2Proof
end

