-- ==== Sys2Proof/Decode.lean ====
section
/-! DEFINITION. Sys2Proof/Decode.lean: the decoder of R93, total on 35-bit words and rejecting by name; the encoder,
written from the same field tables (R82 to R86); and the opcode map in match/mask form (R87). -/

namespace Sys2Proof

/-- Why a command word is illegal (R91, R215): exactly two classes. -/
inductive DecodeError where
  /-- `PREDICT` with `cmd[32] = 1`. -/
  | predictOutcomeBit
  /-- `TEARDOWN` with any of `cmd[32:0]` set. -/
  | teardownReservedBits
deriving DecidableEq, Repr

/-- The direction a bit stands for: `1 = Taken` (R86). -/
def Direction.ofBit (b : BitVec 1) : Direction :=
  if b = 1#1 then .taken else .notTaken

/-- The bit a direction is written as: `Taken = 1`, `NotTaken = 0` (R86). -/
def Direction.bit (d : Direction) : BitVec 1 :=
  match d with
  | .notTaken => 0#1
  | .taken => 1#1

/-- The strategy code of `strat[2:0]` (R85). -/
def Strategy.code (st : Strategy) : BitVec 3 :=
  match st with
  | .static => 0#3
  | .gshare => 1#3
  | .tournament => 2#3
  | .custom => 3#3

/-- The five width fields of a format I word (R83). -/
def decodeWidths (w : CmdWord) : Widths where
  g := w.extractLsb' 24 6
  l := w.extractLsb' 18 6
  c := w.extractLsb' 12 6
  k := w.extractLsb' 6 6
  t := w.extractLsb' 0 6

/-- The `INIT` row a strategy code selects: the four recognised codes, and one row for 4 to 7 (R85, R87). -/
def decodeInit (strat : BitVec 3) (p : Widths) : Instr :=
  if strat = Strategy.static.code then .initStatic p
  else if strat = Strategy.gshare.code then .initGshare p
  else if strat = Strategy.tournament.code then .initTournament p
  else if strat = Strategy.custom.code then .initCustom p
  else .initUnrecognised strat p

/-- The decoder (R93): the major opcode is `cmd[34:33]`; `INIT` always decodes. -/
def decode (w : CmdWord) : Except DecodeError Instr :=
  let op := w.extractLsb' 33 2
  let o := w.extractLsb' 32 1
  let pc := w.extractLsb' 0 32
  if op = 0#2 then .ok (decodeInit (w.extractLsb' 30 3) (decodeWidths w))
  else if op = 1#2 then
    if o = 1#1 then .error .predictOutcomeBit else .ok (.predict pc)
  else if op = 2#2 then .ok (.train pc (Direction.ofBit o))
  else if w.extractLsb' 0 33 = 0#33 then .ok .teardown
  else .error .teardownReservedBits

/-- The command word with the field `v` at bit `lo` and every other bit 0. -/
def placeField {n : Nat} (lo : Nat) (v : BitVec n) : CmdWord :=
  v.setWidth 35 <<< lo

/-- A format I word: `op = 00`, the strategy code, the five widths in the order `g l c k t` (R82, R83). -/
def encodeInit (strat : BitVec 3) (p : Widths) : CmdWord :=
  placeField 33 0#2 ||| placeField 30 strat ||| placeField 24 p.g ||| placeField 18 p.l ||| placeField 12 p.c
    ||| placeField 6 p.k ||| placeField 0 p.t

/-- The command word of a command (R82 to R86). -/
def encode (i : Instr) : CmdWord :=
  match i with
  | .initStatic p => encodeInit Strategy.static.code p
  | .initGshare p => encodeInit Strategy.gshare.code p
  | .initTournament p => encodeInit Strategy.tournament.code p
  | .initCustom p => encodeInit Strategy.custom.code p
  | .initUnrecognised strat p => encodeInit strat p
  | .predict pc => placeField 33 1#2 ||| placeField 0 pc
  | .train pc o => placeField 33 2#2 ||| placeField 32 o.bit ||| placeField 0 pc
  | .teardown => placeField 33 3#2

/-- One row of the opcode map: a word `w` selects it when `w &&& mask = value` (R87). -/
structure OpcodeRow where
  mask : CmdWord
  value : CmdWord
deriving DecidableEq, Repr

/-- `w` selects the row (R87). -/
abbrev OpcodeRow.selects (r : OpcodeRow) (w : CmdWord) : Prop :=
  w &&& r.mask = r.value

/-- The row of the opcode map a command stands in, masks and matches as the table of R87 prints them. -/
def opcodeRow (i : Instr) : OpcodeRow :=
  match i with
  | .initStatic _ => ⟨0x7C0000000#35, 0x000000000#35⟩
  | .initGshare _ => ⟨0x7C0000000#35, 0x040000000#35⟩
  | .initTournament _ => ⟨0x7C0000000#35, 0x080000000#35⟩
  | .initCustom _ => ⟨0x7C0000000#35, 0x0C0000000#35⟩
  | .initUnrecognised _ _ => ⟨0x700000000#35, 0x100000000#35⟩
  | .predict _ => ⟨0x700000000#35, 0x200000000#35⟩
  | .train _ _ => ⟨0x600000000#35, 0x400000000#35⟩
  | .teardown => ⟨0x7FFFFFFFF#35, 0x600000000#35⟩

/-- The instruction the decoder reads from the low `nbits` bits of `w`. The command channel carries one word of 35
bits (R80, R92) and no bytes (R64); a number with a bit set above `cmd[34]` is no command word. -/
def decodeTableWord (nbits w : Nat) : Option Instr :=
  let v := w % 2 ^ nbits
  if v < 2 ^ 35 then
    match decode (BitVec.ofNat 35 v) with
    | .ok i => some i
    | .error _ => none
  else none

end Sys2Proof
end

