-- ==== Sys2Proof/Config.lean ====
section
/-! DEFINITION. Sys2Proof/Config.lean: the configuration record the spec asks a model to take its parameters from
(R9, R50, spec/93 U6 and U8 to U10), the spec's own values for it, and the free values of the registers the spec
leaves unspecified while the engine is `UNINIT` (R51 to R53, spec/93 U12 and U13). -/

namespace Sys2Proof

/-- The implementation parameters a claim may quantify over: the largest legal index width and the reset value of
every array the source gives none for (R9, R50). Fixed for one machine; no command writes it. Gshare's two reset
values are NOT parameters (R50, R131). -/
structure Config where
  /-- `MAX_BITS` (R8). -/
  maxBits : Nat
  /-- `HIST_W`, the width of every history register (R9, R27, spec/93 U9). -/
  histW : Nat
  /-- `RST_GHR` (R50). -/
  rstGhr : History
  /-- `RST_T_GLOBAL` (R50). -/
  rstTGlobal : Counter
  /-- `RST_T_LOCAL` (R50). -/
  rstTLocal : Counter
  /-- `RST_T_LHIST` (R50). -/
  rstTLhist : History
  /-- `RST_T_CHOICE` (R50). -/
  rstTChoice : Counter
  /-- `RST_Y_CHOICE` (R50). -/
  rstYChoice : Counter
  /-- `RST_Y_TAG` (R50); a tag cell takes its low `T` bits (assumption 8). -/
  rstYTag : Tag
  /-- `RST_Y_CTR` (R50). -/
  rstYCtr : Counter
  /-- `RST_Y_LRU` (R50). -/
  rstYLru : WayNo
deriving DecidableEq, Repr

/-- The values the spec gives the parameters: `MAX_BITS = 32` (R8, D7), `HIST_W = 32` (R9, D9), every counter `WN` (1), every history, tag and
LRU bit 0 (R50, D10, D11). -/
def Config.spec : Config where
  maxBits := 32
  histW := 32
  rstGhr := 0
  rstTGlobal := 1#2
  rstTLocal := 1#2
  rstTLhist := 0
  rstTChoice := 1#2
  rstYChoice := 1#2
  rstYTag := 0#32
  rstYCtr := 1#2
  rstYLru := 0#1

/-- A parameter set the rules are written for: `MAX_BITS` at least 1 and no more than `PC_W = 32` and `HIST_W`, the
widths of the values `lowerBits` is applied to (R8, R27, R120; D7: a model may lower `MAX_BITS`; D9: any sufficient
`HIST_W`); and history reset values that fit in a history register. -/
abbrev Config.wf (cfg : Config) : Prop :=
  1 ≤ cfg.maxBits ∧ cfg.maxBits ≤ 32 ∧ cfg.maxBits ≤ cfg.histW
    ∧ cfg.rstGhr < 2 ^ cfg.histW ∧ cfg.rstTLhist < 2 ^ cfg.histW

/-- FREE VALUE (assumption 5): what `STRAT` holds after the `n`-th time it became unspecified (R51 to R53). -/
opaque Config.unspecifiedStrat : Nat → BitVec 2

/-- FREE VALUE (assumption 5): what width register number `r` (0 = `G`, 1 = `L`, 2 = `C`, 3 = `K`, 4 = `T`) holds
after the `n`-th time it became unspecified (R51 to R53): `Config.unspecifiedWidth r n`. -/
opaque Config.unspecifiedWidth : Nat → Nat → WidthReg

end Sys2Proof
end

