-- ==== Sys2Proof/Machine/State.lean ====
section
/-! DEFINITION. Sys2Proof/Machine/State.lean: the whole state of one engine (R20), its command and response channels
(R80, R81), the reasons a step can stop, and the state after hardware reset (R51, R241). Plain data throughout. -/

namespace Sys2Proof.Machine

/-- One storage array: an address space of its own whose cells hold values of one type (R60), written cell by cell (R63).
`fill` is what every cell was created with at `INIT` and what an unlisted cell reads as; `cells` lists the others, in
rising order of index. The canonical form is `Memory.wf` (Machine/Ops.lean). -/
structure Memory (α : Type) where
  fill : α
  cells : List (Nat × α)
deriving DecidableEq, Repr

/-- The strategy state of Gshare: `GHR` (R27) and `G_TABLE`, `2^G` counters (R30). -/
structure GshareState where
  ghr : History
  table : Memory Counter
deriving DecidableEq, Repr

/-- The strategy state of Tournament: `GHR` (R27), `T_GLOBAL` (R31), `T_LOCAL` (R32), `T_LHIST` (R28) and `T_CHOICE`
(R33). -/
structure TournamentState where
  ghr : History
  globalTable : Memory Counter
  localTable : Memory Counter
  localHist : Memory History
  choice : Memory Counter
deriving DecidableEq, Repr

/-- One way of a tagged cache: `Y_TAG[c][w]` and `Y_CTR[c][w]`, one cell per set (R35). There is no valid bit. -/
structure Way where
  tag : Memory Tag
  ctr : Memory Counter
deriving DecidableEq, Repr

/-- One tagged cache: two ways and `Y_LRU[c]`, one bit per set (R35). -/
structure Cache where
  way0 : Way
  way1 : Way
  lru : Memory WayNo
deriving DecidableEq, Repr

/-- The strategy state of Custom: `GHR` (R27), `Y_CHOICE` (R34), and the two caches `TC` and `NC` (R35). -/
structure CustomState where
  ghr : History
  choice : Memory Counter
  tc : Cache
  nc : Cache
deriving DecidableEq, Repr

/-- `MODE` together with `STRAT` and the strategy state: one constructor per mode and strategy, as R20 asks, so that no
rule can read a table the active strategy does not own. `MODE` and `STRAT` are read off it by `Engine.mode` and
`Engine.strat` (Machine/Ops.lean). -/
inductive Engine where
  /-- `MODE = UNINIT`: no strategy state exists (R52); `strat` is what the 2-bit register `STRAT` still holds, which no
  command can observe (R51). -/
  | uninit (strat : BitVec 2)
  /-- `MODE = READY`, `STRAT = STATIC`: no strategy state (R37). -/
  | static
  /-- `MODE = READY`, `STRAT = GSHARE`. -/
  | gshare (e : GshareState)
  /-- `MODE = READY`, `STRAT = TOURNAMENT`. -/
  | tournament (e : TournamentState)
  /-- `MODE = READY`, `STRAT = CUSTOM`. -/
  | custom (e : CustomState)
deriving DecidableEq, Repr

/-- The two values of `MODE` (R21). -/
inductive Mode where
  | uninit
  | ready
deriving DecidableEq, Repr

/-- The two tagged caches (R35). -/
inductive CacheName where
  | tc
  | nc
deriving DecidableEq, Repr

/-- The storage arrays, by name: the spaces of R60, one of which a diagnostic record names (R90). -/
inductive TableName where
  | gTable
  | tGlobal
  | tLocal
  | tLhist
  | tChoice
  | yChoice
  | yTag (cache : CacheName) (way : WayNo)
  | yCtr (cache : CacheName) (way : WayNo)
  | yLru (cache : CacheName)
deriving DecidableEq, Repr

/-- The diagnostic record of an invariant violation: offending value, table and index (R90). -/
structure DiagRecord where
  value : Counter
  table : TableName
  index : Nat
deriving DecidableEq, Repr

/-- What the host does at the engine's inputs, in the order it does it (R80, R81). -/
inductive HostInput where
  /-- `cmd_valid = 1` with this word on `cmd`. -/
  | command (w : CmdWord)
  /-- `rst_n` low: hardware reset (R51). `inFlight` is the command, if any, that had been accepted and not yet
  answered: it is abandoned without a response (R240). -/
  | hardwareReset (inFlight : Option CmdWord)
deriving DecidableEq, Repr

/-- The engine's own faults that end a command with a status other than `OK` (R210). They are responses: the machine
goes on. -/
inductive EngineFault where
  | configurationError
  | protocolError
  | illegalCommand
deriving DecidableEq, Repr

/-- The `status` codes of a response (R88). -/
inductive Status where
  | ok
  | configError
  | protocolError
  | illegalCommand
deriving DecidableEq, Repr

/-- The whole state. -/
structure State where
  /-- The implementation parameters (R9), constant for one machine: the MODEL's way to let a claim quantify over them. -/
  cfg : Config
  /-- `MODE`, `STRAT` and the strategy state (R20 to R22, R27 to R35). -/
  engine : Engine
  /-- The registers `G`, `L`, `C`, `K`, `T` (R23). -/
  widths : Widths
  /-- The command channel: what the host will present, oldest first (R80). -/
  inputs : List HostInput
  /-- `cmd_ready` (R80, R81). -/
  cmdReady : Bool
  /-- `rsp_valid` and `rsp`: `some word` while `rsp_valid = 1` (R80, R88). -/
  rsp : Option RspWord
  /-- The diagnostic records emitted with that response (R90). -/
  diagRecords : List DiagRecord
  /-- The MODEL's counter of free values taken so far (assumption 6). -/
  freeCount : Nat
deriving DecidableEq, Repr

/-- Why a step stops. Neither reason is reachable from reset: `INIT` admits no such width (R61, R212). -/
inductive Fault where
  /-- Raised by `PREDICT` and `TRAIN` in a state whose active strategy reads a width above that of the `pc`, of the
  cache key (32) or of the history register (`HIST_W`) it is applied to: `lowerBits` has no meaning there (R120, spec/93
  U1). Safe: the model stops where the spec gives no result. -/
  | widthOutOfRange
  /-- Raised by `PREDICT` and `TRAIN` in a Tournament state with `L > G`: an `L`-bit index can name a cell that
  `T_CHOICE`, of `2^G` cells, does not have (R33, R61). Safe: no such cell exists. -/
  | choiceIndexOutOfRange
deriving DecidableEq, Repr

/-- Why an instruction is not run. -/
inductive Refusal where
  /-- Raised by `exec` for an instruction that has no meaning yet; no arm raises it now. Safe. -/
  | notModelled (mnemonic : String)
deriving DecidableEq, Repr

/-- The machine right after power-on: `MODE = UNINIT` (R51), `cmd_ready = 1`, `rsp_valid = 0` (R241), nothing
presented. `STRAT` and the five widths, which R51 leaves unspecified, are 0 (DESIGN CHOICE, assumption 4); `freeCount`
starts at 0 (DESIGN CHOICE, assumption 6); the parameters are the spec's (R50). -/
def State.reset : State where
  cfg := Config.spec
  engine := .uninit 0#2
  widths := { g := 0#6, l := 0#6, c := 0#6, k := 0#6, t := 0#6 }
  inputs := []
  cmdReady := true
  rsp := none
  diagRecords := []
  freeCount := 0

end Sys2Proof.Machine
end

