-- ==== Sys2Proof/Machine/Flags.lean ====
section
/-! DEFINITION. Sys2Proof/Machine/Flags.lean: the response word, the engine's only status output (R39, R88). -/

namespace Sys2Proof.Machine

/-- The `status` code of `rsp[3:2]` (R88). -/
def Status.code (st : Status) : BitVec 2 :=
  match st with
  | .ok => 0#2
  | .configError => 1#2
  | .protocolError => 2#2
  | .illegalCommand => 3#2

/-- The status a fault is reported with (R210). -/
def EngineFault.status (f : EngineFault) : Status :=
  match f with
  | .configurationError => .configError
  | .protocolError => .protocolError
  | .illegalCommand => .illegalCommand

/-- The response word: `rsp[3:2] = status`, `rsp[1] = diag`, `rsp[0] = pred` (R88). -/
def rspWord (st : Status) (diag : Bool) (pred : Direction) : RspWord :=
  st.code ++ BitVec.ofBool diag ++ pred.bit

/-- `status`, read back from a response word (R88). -/
def rspStatus (r : RspWord) : BitVec 2 :=
  r.extractLsb' 2 2

/-- `diag`, read back from a response word (R88). -/
def rspDiag (r : RspWord) : Bool :=
  r.getLsbD 1

/-- `pred`, read back from a response word (R86, R88). -/
def rspPred (r : RspWord) : Direction :=
  Direction.ofBit (r.extractLsb' 0 1)

end Sys2Proof.Machine
end

