-- ==== Sys2Proof/Machine/Ops.lean ====
section
/-! DEFINITION. Sys2Proof/Machine/Ops.lean: the named operations every rule is written over: one cell of an array
(R63), the mode and configuration registers, accepting a command and answering it (R81), taking a fault (R210, R214),
releasing the strategy state (R52), hardware reset (R51). There is no return from a fault: nothing was saved and
nothing is restored (R219, R220). -/

namespace Sys2Proof.Machine

/-! ### Array cells -/

/-- The listed value of cell `i`, or `fill` where `i` is not listed. -/
def readCells {α : Type} (fill : α) (cells : List (Nat × α)) (i : Nat) : α :=
  match cells with
  | [] => fill
  | (j, v) :: rest => if j = i then v else readCells fill rest i

/-- `A[i]` (R14): the whole cell `i` (R63). -/
def Memory.read {α : Type} (m : Memory α) (i : Nat) : α :=
  readCells m.fill m.cells i

/-- The list without cell `i`. -/
def dropCell {α : Type} (cells : List (Nat × α)) (i : Nat) : List (Nat × α) :=
  match cells with
  | [] => []
  | (j, v) :: rest => if j = i then dropCell rest i else (j, v) :: dropCell rest i

/-- The list with cell `i` put before the first cell of a greater index. -/
def putCell {α : Type} (cells : List (Nat × α)) (i : Nat) (v : α) : List (Nat × α) :=
  match cells with
  | [] => [(i, v)]
  | (j, u) :: rest => if i < j then (i, v) :: (j, u) :: rest else (j, u) :: putCell rest i v

/-- `A[i] <- v` (R14): the whole cell `i` is replaced (R63). A cell back at `fill` is not listed, so that equal arrays
are equal data. -/
def Memory.write {α : Type} [DecidableEq α] (m : Memory α) (i : Nat) (v : α) : Memory α :=
  if v = m.fill then { m with cells := dropCell m.cells i }
  else { m with cells := putCell (dropCell m.cells i) i v }

/-- "new array, every cell `v`" (R50). -/
def Memory.new {α : Type} (v : α) : Memory α :=
  { fill := v, cells := [] }

/-- The canonical form: indices strictly rising, no listed cell equal to `fill`. -/
abbrev Memory.wf {α : Type} (m : Memory α) : Prop :=
  m.cells.Pairwise (fun a b => a.1 < b.1) ∧ ∀ c ∈ m.cells, c.2 ≠ m.fill

/-- Every listed index is one of an array of `2^n` cells (R26, R60). -/
abbrev Memory.within {α : Type} (m : Memory α) (n : Nat) : Prop :=
  ∀ c ∈ m.cells, c.1 < 2 ^ n

/-! ### Mode and configuration registers -/

/-- `MODE` (R21). -/
def Engine.mode (e : Engine) : Mode :=
  match e with
  | .uninit _ => .uninit
  | .static => .ready
  | .gshare _ => .ready
  | .tournament _ => .ready
  | .custom _ => .ready

/-- `MODE` as the bit R21 gives it: `UNINIT = 0`, `READY = 1`. -/
def Mode.bit (m : Mode) : BitVec 1 :=
  match m with
  | .uninit => 0#1
  | .ready => 1#1

/-- `STRAT`, the 2-bit register (R22). -/
def Engine.strat (e : Engine) : BitVec 2 :=
  match e with
  | .uninit b => b
  | .static => 0#2
  | .gshare _ => 1#2
  | .tournament _ => 2#2
  | .custom _ => 3#2

/-- `MODE` of the machine. -/
def State.mode (s : State) : Mode :=
  s.engine.mode

/-- `STRAT` of the machine. -/
def State.strat (s : State) : BitVec 2 :=
  s.engine.strat

/-- One width is legal: `1 <= value <= MAX_BITS` (R8). -/
abbrev widthLegal (maxBits : Nat) (v : WidthReg) : Prop :=
  1 ≤ v.toNat ∧ v.toNat ≤ maxBits

/-- All five widths are legal, whichever strategy is asked for (R191, R212). -/
abbrev widthsLegal (maxBits : Nat) (p : Widths) : Prop :=
  widthLegal maxBits p.g ∧ widthLegal maxBits p.l ∧ widthLegal maxBits p.c ∧ widthLegal maxBits p.k
    ∧ widthLegal maxBits p.t

/-! ### Answering, faulting, releasing, resetting -/

/-- The command's one response (R81, R88): `rsp_valid` with the word, `diag` set when a record was emitted (R90,
R213); `cmd_ready` is 1 again (R251). -/
def respond (st : Status) (diag : List DiagRecord) (pred : Direction) (s : State) : State :=
  { s with cmdReady := true, rsp := some (rspWord st (!diag.isEmpty) pred), diagRecords := diag }

/-- `MODE <- UNINIT` with all strategy state discarded (R52, R53): the arrays and history registers cease to exist, and
`STRAT` and the five widths hold free values from then on (assumption 5). -/
def release (s : State) : State :=
  { s with
    engine := .uninit (Config.unspecifiedStrat s.freeCount)
    widths :=
      { g := Config.unspecifiedWidth 0 s.freeCount
        l := Config.unspecifiedWidth 1 s.freeCount
        c := Config.unspecifiedWidth 2 s.freeCount
        k := Config.unspecifiedWidth 3 s.freeCount
        t := Config.unspecifiedWidth 4 s.freeCount }
    freeCount := s.freeCount + 1 }

/-- `raise <Fault>` (R14, R214): the command ends with the fault's status. `ProtocolError` and `IllegalCommand` leave
the engine exactly as it was; `ConfigurationError` leaves it `UNINIT` with the previous strategy state discarded
(R53, R192). Nothing latches (R214) and nothing is saved (R219). -/
def raise (f : EngineFault) (s : State) : State :=
  match f with
  | .configurationError => respond f.status [] .notTaken (release s)
  | .protocolError => respond f.status [] .notTaken s
  | .illegalCommand => respond f.status [] .notTaken s

/-- Hardware reset, `rst_n` low (R51, R240, R241): `MODE <- UNINIT`, everything else unspecified, `cmd_ready = 1`,
`rsp_valid = 0`. The host's own later inputs and the machine's parameters are not the engine's to lose. -/
def hardwareReset (s : State) : State :=
  { release s with cmdReady := true, rsp := none, diagRecords := [] }

/-! ### The command channel -/

/-- What the engine finds at its inputs when a step begins. -/
inductive Fetched where
  /-- No word is accepted; the state one quiet cycle later. -/
  | idle (s : State)
  /-- Hardware reset. -/
  | reset (s : State)
  /-- This word is accepted; the state after the accepting clock edge. -/
  | word (w : CmdWord) (s : State)
deriving DecidableEq, Repr

/-- A cycle in which no command is accepted: the engine holds its state (R226), `rsp_valid`, asserted for one cycle
(R80), falls, and `cmd_ready` is 1 (R251). -/
def idle (s : State) : State :=
  { s with cmdReady := true, rsp := none, diagRecords := [] }

/-- The accepting edge: the word leaves the channel, the previous response is over, and `cmd_ready` is 0 until the
answer (R81). -/
def accept (rest : List HostInput) (s : State) : State :=
  { s with inputs := rest, cmdReady := false, rsp := none, diagRecords := [] }

/-- The handshake (R81): a word is accepted when `cmd_valid` and `cmd_ready` are both 1. -/
def fetch (s : State) : Fetched :=
  match s.inputs with
  | [] => .idle (idle s)
  | .hardwareReset _ :: rest => .reset { s with inputs := rest }
  | .command w :: rest => if s.cmdReady then .word w (accept rest s) else .idle (idle s)

/-- Put a command word where the next fetch takes it: at the front of the command channel, `cmd_ready` being 1. -/
def present (w : CmdWord) (s : State) : State :=
  { s with inputs := .command w :: s.inputs, cmdReady := true }

end Sys2Proof.Machine
end

