-- ==== Sys2Proof/Machine/Operands.lean ====
section
/-! DEFINITION. Sys2Proof/Machine/Operands.lean: the bit-field utilities of spec/41_bitfield.md and every index and tag
derived with them (R130, R140 to R142, R160 to R163). -/

namespace Sys2Proof.Machine

/-- `lowerBits(value, n)`: the unsigned integer `value mod 2^n` (R120). Its precondition, `n` no more than the width of
the value (32 for a `pc` and a cache key, `HIST_W` for a history register), is checked where a command begins
(`Engine.stop`): no rule evaluates it above (spec/93 U1). -/
def lowerBits (value n : Nat) : Nat :=
  value % 2 ^ n

/-- `shiftIn(history, outcome)` in a register of `histW = HIST_W` bits: every bit moves up one place, the top bit is
discarded, bit 0 becomes the outcome: `(history << 1) | outcome` (R122, `HIST_W = 32`; D9). -/
def shiftIn (histW : Nat) (history : History) (o : Direction) : History :=
  ((history <<< 1) ||| o.bit.toNat) % 2 ^ histW

/-- The exclusive-or of the low `n` bits of `pc` and of a history: the formula of `gIndex` (R130, R140) and of
`cacheKey` (R161). -/
def hashIndex (pc : Pc) (h : History) (n : Nat) : Nat :=
  lowerBits pc.toNat n ^^^ lowerBits h n

/-- `gIndex(pc, GHR, G)` (R130, R140). -/
def gIndex (pc : Pc) (ghr : History) (g : Nat) : Nat :=
  hashIndex pc ghr g

/-- `pcSlot(pc, L)` (R141). -/
def pcSlot (pc : Pc) (l : Nat) : Nat :=
  lowerBits pc.toNat l

/-- `localIndex(pc) = lowerBits(T_LHIST[pcSlot(pc, L)], L)` (R142). -/
def localIndex (localHist : Memory History) (pc : Pc) (l : Nat) : Nat :=
  lowerBits (localHist.read (pcSlot pc l)) l

/-- `choiceIndex(pc) = lowerBits(pc, C)` (R160). -/
def choiceIndex (pc : Pc) (c : Nat) : Nat :=
  lowerBits pc.toNat c

/-- `cacheKey(pc, GHR) = lowerBits(pc, C) ^ lowerBits(GHR, C)` (R161). -/
def cacheKey (pc : Pc) (ghr : History) (c : Nat) : Nat :=
  hashIndex pc ghr c

/-- `cacheIndex = lowerBits(cacheKey, K)`, the set number (R162). -/
def cacheIndex (pc : Pc) (ghr : History) (c k : Nat) : Nat :=
  lowerBits (cacheKey pc ghr c) k

/-- The low `T` bits of a 32-bit value, as a tag cell holds them (R35). -/
def tagBits (value : BitVec 32) (t : Nat) : Tag :=
  BitVec.ofNat 32 (lowerBits value.toNat t)

/-- `tag(pc) = lowerBits(pc, T)` (R163). -/
def tagOf (pc : Pc) (t : Nat) : Tag :=
  tagBits pc t

/-- The greatest `n` for which `lowerBits(., n)` has a meaning on a `pc` and on a history register of `histW` bits
(R120). -/
def indexLimit (histW : Nat) : Nat :=
  min 32 histW

/-- Why the active strategy's index formulas have no meaning, if they have none: a width they read is above that of the value
it is applied to (spec/93 U1), or a Tournament state has `L > G` (R61). `INIT` lets no such state arise (R212). -/
def Engine.stop (e : Engine) (histW : Nat) (p : Widths) : Option Fault :=
  match e with
  | .uninit _ => none
  | .static => none
  | .gshare _ => if p.g.toNat ≤ indexLimit histW then none else some .widthOutOfRange
  | .tournament _ =>
    if p.g.toNat ≤ indexLimit histW ∧ p.l.toNat ≤ indexLimit histW then
      if p.l.toNat ≤ p.g.toNat then none else some .choiceIndexOutOfRange
    else some .widthOutOfRange
  | .custom _ =>
    if p.c.toNat ≤ indexLimit histW ∧ p.k.toNat ≤ 32 ∧ p.t.toNat ≤ 32 then none else some .widthOutOfRange

end Sys2Proof.Machine
end

