-- ==== Sys2Proof/Machine/Counter.lean ====
section
/-! DEFINITION. Sys2Proof/Machine/Counter.lean: the saturating counter (spec/40_counter.md) and the prediction read
from one cell, with the diagnostic of an unrecognised value (R213). -/

namespace Sys2Proof.Machine

/-- `SN`, Strongly-Not-Taken (R110). -/
abbrev SN : Counter := 0#2
/-- `WN`, Weakly-Not-Taken (R110). -/
abbrev WN : Counter := 1#2
/-- `WT`, Weakly-Taken (R110). -/
abbrev WT : Counter := 2#2
/-- `ST`, Strongly-Taken (R110). -/
abbrev ST : Counter := 3#2

/-- The value is one of the four levels (R41, R110). -/
def ctrRecognised (c : Counter) : Bool :=
  c == SN || c == WN || c == WT || c == ST

/-- `ctr_predict(c)` (R111); a value outside the four levels predicts `NotTaken` (R114, R213). -/
def ctrPredict (c : Counter) : Direction :=
  if c = SN ∨ c = WN then .notTaken
  else if c = WT ∨ c = ST then .taken
  else .notTaken

/-- `ctr_update(c, o)`: one step toward the outcome, saturating (R112). -/
def ctrUpdate (c : Counter) (o : Direction) : Counter :=
  match o with
  | .taken => if c = ST then ST else c + 1#2
  | .notTaken => if c = SN then SN else c - 1#2

/-- A prediction and the diagnostic records made on the way to it. -/
structure Prediction where
  dir : Direction
  diag : List DiagRecord
deriving DecidableEq, Repr

/-- The record for the value `c` of cell `i` of the table, if `c` is no level (R90, R213). -/
def ctrDiag (table : TableName) (i : Nat) (c : Counter) : List DiagRecord :=
  if ctrRecognised c then [] else [{ value := c, table := table, index := i }]

/-- `ctr_predict` applied to a cell: its prediction, and a record where the cell's value is no level (R213). -/
def predictCell (table : TableName) (m : Memory Counter) (i : Nat) : Prediction where
  dir := ctrPredict (m.read i)
  diag := ctrDiag table i (m.read i)

/-- `A[i] <- ctr_update(A[i], o)`: the read-modify-write of one counter cell (R66, R113). -/
def updateCell (m : Memory Counter) (i : Nat) (o : Direction) : Memory Counter :=
  m.write i (ctrUpdate (m.read i) o)

end Sys2Proof.Machine
end

