-- ==== Sys2Proof/Machine/Custom.lean ====
section
/-! DEFINITION. Sys2Proof/Machine/Custom.lean: the Custom, YAGS-style strategy (spec/44_custom_yags.md). -/

namespace Sys2Proof.Machine

/-- One way of a cache after `INIT` (R165); a tag cell holds the low `T` bits of `RST_Y_TAG` (assumption 8). -/
def wayInit (cfg : Config) (t : Nat) : Way where
  tag := Memory.new (tagBits cfg.rstYTag t)
  ctr := Memory.new cfg.rstYCtr

/-- One tagged cache after `INIT` (R165). -/
def cacheInit (cfg : Config) (t : Nat) : Cache where
  way0 := wayInit cfg t
  way1 := wayInit cfg t
  lru := Memory.new cfg.rstYLru

/-- `INIT` under Custom (R165), the reset values taken from the configuration (R50). -/
def customInit (cfg : Config) (p : Widths) : CustomState where
  ghr := cfg.rstGhr
  choice := Memory.new cfg.rstYChoice
  tc := cacheInit cfg p.t.toNat
  nc := cacheInit cfg p.t.toNat

/-- Way `w` of a cache. -/
def Cache.way (c : Cache) (w : WayNo) : Way :=
  if w = 0#1 then c.way0 else c.way1

/-- The cache with way `w` replaced. -/
def Cache.setWay (c : Cache) (w : WayNo) (x : Way) : Cache :=
  if w = 0#1 then { c with way0 := x } else { c with way1 := x }

/-- The cache of that name. -/
def CustomState.cache (e : CustomState) (n : CacheName) : Cache :=
  match n with
  | .tc => e.tc
  | .nc => e.nc

/-- The strategy state with the cache of that name replaced. -/
def CustomState.setCache (e : CustomState) (n : CacheName) (c : Cache) : CustomState :=
  match n with
  | .tc => { e with tc := c }
  | .nc => { e with nc := c }

/-- `select(baseline)` (R164). -/
def selectCache (baseline : Direction) : CacheName :=
  match baseline with
  | .taken => .tc
  | .notTaken => .nc

/-- `lookup(c, s, tg)`: the hitting way, way 0 examined first; the tag alone decides, there being no valid bit
(R164). -/
def cacheLookup (c : Cache) (set : Nat) (tg : Tag) : Option WayNo :=
  if c.way0.tag.read set = tg then some 0#1
  else if c.way1.tag.read set = tg then some 1#1
  else none

/-- `baseline(pc)` (R160). -/
def baseline (p : Widths) (pc : Pc) (e : CustomState) : Prediction :=
  predictCell .yChoice e.choice (choiceIndex pc p.c.toNat)

/-- `PREDICT` under Custom (R166): a hit in the cache the baseline selects overrides the baseline. -/
def customPredict (p : Widths) (pc : Pc) (e : CustomState) : Prediction :=
  let base := baseline p pc e
  let name := selectCache base.dir
  let set := cacheIndex pc e.ghr p.c.toNat p.k.toNat
  match cacheLookup (e.cache name) set (tagOf pc p.t.toNat) with
  | some w =>
    let hit := predictCell (.yCtr name w) ((e.cache name).way w).ctr set
    { dir := hit.dir, diag := base.diag ++ hit.diag }
  | none => base

/-- `1 - w` on a way number (R126). -/
def otherWay (w : WayNo) : WayNo :=
  1#1 - w

/-- `hit_update(c, s, w, o)` (R168): the hit way's counter steps, the other way becomes the least recently used. -/
def hitUpdate (c : Cache) (set : Nat) (w : WayNo) (o : Direction) : Cache :=
  let x := c.way w
  { c.setWay w { x with ctr := updateCell x.ctr set o } with lru := c.lru.write set (otherWay w) }

/-- The counter of a fresh entry (R169). -/
def freshCounter (o : Direction) : Counter :=
  match o with
  | .taken => WT
  | .notTaken => WN

/-- `allocate(c, s, tg, o)` (R169): the victim way gets the tag and a weak counter for the outcome, its old value
ignored, and the LRU indicator flips. -/
def allocate (c : Cache) (set : Nat) (tg : Tag) (o : Direction) : Cache :=
  let v := c.lru.read set
  let x := c.way v
  { c.setWay v { tag := x.tag.write set tg, ctr := x.ctr.write set (freshCounter o) } with
    lru := c.lru.write set (otherWay v) }

/-- The cache action of a `TRAIN` (R167, R171): a hit updates; a miss allocates when the baseline was wrong, and
otherwise writes nothing (R170). -/
def cacheTrain (c : Cache) (set : Nat) (tg : Tag) (base o : Direction) : Cache :=
  match cacheLookup c set tg with
  | some w => hitUpdate c set w o
  | none => if base = o then c else allocate c set tg o

/-- `TRAIN` under Custom (R167): one cache action in the cache the baseline selects, the choice cell always, the
history always; everything read from the state before the command. -/
def customTrain (histW : Nat) (p : Widths) (pc : Pc) (o : Direction) (e : CustomState) : CustomState :=
  let base := (baseline p pc e).dir
  let name := selectCache base
  let set := cacheIndex pc e.ghr p.c.toNat p.k.toNat
  let e' := e.setCache name (cacheTrain (e.cache name) set (tagOf pc p.t.toNat) base o)
  { e' with
    choice := updateCell e.choice (choiceIndex pc p.c.toNat) o
    ghr := shiftIn histW e.ghr o }

end Sys2Proof.Machine
end

