-- ==== Sys2Proof/Machine/Gshare.lean ====
section
/-! DEFINITION. Sys2Proof/Machine/Gshare.lean: the Gshare strategy (spec/42_gshare.md). -/

namespace Sys2Proof.Machine

/-- `INIT` under Gshare (R131): every counter `WN`, history 0; these two values are not parameters. -/
def gshareInit : GshareState where
  ghr := 0
  table := Memory.new WN

/-- `PREDICT` under Gshare (R132). -/
def gsharePredict (p : Widths) (pc : Pc) (e : GshareState) : Prediction :=
  predictCell .gTable e.table (gIndex pc e.ghr p.g.toNat)

/-- `TRAIN` under Gshare (R133): the index comes from the history before this command (R134). -/
def gshareTrain (histW : Nat) (p : Widths) (pc : Pc) (o : Direction) (e : GshareState) : GshareState where
  ghr := shiftIn histW e.ghr o
  table := updateCell e.table (gIndex pc e.ghr p.g.toNat) o

end Sys2Proof.Machine
end

