-- ==== Sys2Proof/Machine/Static.lean ====
section
/-! DEFINITION. Sys2Proof/Machine/Static.lean: the Static strategy (R37, R193): no state, always `Taken`. -/

namespace Sys2Proof.Machine

/-- `predict_static(pc)` (R193). -/
def staticPredict (_pc : Pc) : Prediction where
  dir := .taken
  diag := []

end Sys2Proof.Machine
end

