-- ==== Sys2Proof/Machine/Tournament.lean ====
section
/-! DEFINITION. Sys2Proof/Machine/Tournament.lean: the Tournament strategy (spec/43_tournament.md). -/

namespace Sys2Proof.Machine

/-- `INIT` under Tournament (R143), the reset values taken from the configuration (R50). -/
def tournamentInit (cfg : Config) : TournamentState where
  ghr := cfg.rstGhr
  globalTable := Memory.new cfg.rstTGlobal
  localTable := Memory.new cfg.rstTLocal
  localHist := Memory.new cfg.rstTLhist
  choice := Memory.new cfg.rstTChoice

/-- `gpred` (R145, R146). -/
def globalPrediction (p : Widths) (pc : Pc) (e : TournamentState) : Prediction :=
  predictCell .tGlobal e.globalTable (gIndex pc e.ghr p.g.toNat)

/-- `lpred` (R145, R146). -/
def localPrediction (p : Widths) (pc : Pc) (e : TournamentState) : Prediction :=
  predictCell .tLocal e.localTable (localIndex e.localHist pc p.l.toNat)

/-- `choice`, the metapredictor's own prediction: `Taken` selects local (R144). -/
def choicePrediction (p : Widths) (pc : Pc) (e : TournamentState) : Prediction :=
  predictCell .tChoice e.choice (pcSlot pc p.l.toNat)

/-- `PREDICT` under Tournament (R145). -/
def tournamentPredict (p : Widths) (pc : Pc) (e : TournamentState) : Prediction :=
  let gp := globalPrediction p pc e
  let lp := localPrediction p pc e
  let ch := choicePrediction p pc e
  { dir := if ch.dir = .taken then lp.dir else gp.dir, diag := gp.diag ++ lp.diag ++ ch.diag }

/-- The choice update (R147): only when the two sub-predictions disagree, toward local exactly when local was right. -/
def choiceTrain (lpred gpred o : Direction) (slot : Nat) (choice : Memory Counter) : Memory Counter :=
  if lpred = gpred then choice
  else updateCell choice slot (if lpred = o then .taken else .notTaken)

/-- `TRAIN` under Tournament (R146): both sub-tables unconditionally, the choice cell on disagreement, then both
histories; every index and prediction from the state before the command. -/
def tournamentTrain (histW : Nat) (p : Widths) (pc : Pc) (o : Direction) (e : TournamentState) :
    TournamentState :=
  let slot := pcSlot pc p.l.toNat
  { ghr := shiftIn histW e.ghr o
    globalTable := updateCell e.globalTable (gIndex pc e.ghr p.g.toNat) o
    localTable := updateCell e.localTable (localIndex e.localHist pc p.l.toNat) o
    localHist := e.localHist.write slot (shiftIn histW (e.localHist.read slot) o)
    choice := choiceTrain (localPrediction p pc e).dir (globalPrediction p pc e).dir o slot e.choice }

/-- The records of the two `ctr_predict`s a `TRAIN` needs (R146, R213; the third is not evaluated, C10). -/
def tournamentTrainDiag (p : Widths) (pc : Pc) (e : TournamentState) : List DiagRecord :=
  (globalPrediction p pc e).diag ++ (localPrediction p pc e).diag

end Sys2Proof.Machine
end

