-- ==== Sys2Proof/Machine/Init.lean ====
section
/-! DEFINITION. Sys2Proof/Machine/Init.lean: the family `INIT` (R190 to R192, R201, R211, R212). -/

namespace Sys2Proof.Machine

/-- `do_init` for a recognised strategy (R190): the range check, then the cross-field check the strategy asks for
(`L <= G`, Tournament only, R212), then success: the previous strategy state is discarded (R201), the five width
registers are written whatever the strategy (R191), the new strategy state is created, `MODE` is `READY`. Legal in
both modes. -/
def initialise (needsLocalWithinGlobal : Bool) (e : Engine) (p : Widths) (s : State) : State :=
  if widthsLegal s.cfg.maxBits p then
    if needsLocalWithinGlobal = true ∧ p.g.toNat < p.l.toNat then raise .configurationError s
    else respond .ok [] .notTaken { s with engine := e, widths := p }
  else raise .configurationError s

/-- `INIT.STATIC` (R190, R193): no strategy state. -/
def execInitStatic (p : Widths) (s : State) : Host.Outcome State Fault Refusal :=
  .next (initialise false .static p s)

/-- `INIT.GSHARE` (R190, R131). -/
def execInitGshare (p : Widths) (s : State) : Host.Outcome State Fault Refusal :=
  .next (initialise false (.gshare gshareInit) p s)

/-- `INIT.TOURNAMENT` (R190, R143, R212). -/
def execInitTournament (p : Widths) (s : State) : Host.Outcome State Fault Refusal :=
  .next (initialise true (.tournament (tournamentInit s.cfg)) p s)

/-- `INIT.CUSTOM` (R190, R165). -/
def execInitCustom (p : Widths) (s : State) : Host.Outcome State Fault Refusal :=
  .next (initialise false (.custom (customInit s.cfg p)) p s)

/-- `INIT` with an unrecognised strategy: always `ConfigurationError`, before the widths are looked at (R190, R211). -/
def execInitUnrecognised (_strat : BitVec 3) (_p : Widths) (s : State) : Host.Outcome State Fault Refusal :=
  .next (raise .configurationError s)

end Sys2Proof.Machine
end

