-- ==== Sys2Proof/Machine/Predict.lean ====
section
/-! DEFINITION. Sys2Proof/Machine/Predict.lean: the family `PREDICT` (R194, R195). -/

namespace Sys2Proof.Machine

/-- The active strategy's prediction (R194: dispatch on `STRAT`); none in `UNINIT`. -/
def Engine.predict (e : Engine) (p : Widths) (pc : Pc) : Option Prediction :=
  match e with
  | .uninit _ => none
  | .static => some (staticPredict pc)
  | .gshare x => some (gsharePredict p pc x)
  | .tournament x => some (tournamentPredict p pc x)
  | .custom x => some (customPredict p pc x)

/-- `PREDICT pc` (R194): `ProtocolError` in `UNINIT` (R216); else the prediction, and no state written (R195). It stops
only in a state whose widths give its index formulas no meaning (`Engine.stop`). -/
def execPredict (pc : Pc) (s : State) : Host.Outcome State Fault Refusal :=
  match s.engine.stop s.cfg.histW s.widths with
  | some f => .fault f
  | none =>
    match s.engine.predict s.widths pc with
    | none => .next (raise .protocolError s)
    | some pr => .next (respond .ok pr.diag pr.dir s)

end Sys2Proof.Machine
end

