-- ==== Sys2Proof/Machine/Teardown.lean ====
section
/-! DEFINITION. Sys2Proof/Machine/Teardown.lean: the family `TEARDOWN` (R199). -/

namespace Sys2Proof.Machine

/-- `TEARDOWN` (R199): `ProtocolError` in `UNINIT` (R216); else all strategy state is discarded and `MODE` is
`UNINIT` (R52). -/
def execTeardown (s : State) : Host.Outcome State Fault Refusal :=
  match s.mode with
  | .uninit => .next (raise .protocolError s)
  | .ready => .next (respond .ok [] .notTaken (release s))

end Sys2Proof.Machine
end

