-- ==== Sys2Proof/Machine/Train.lean ====
section
/-! DEFINITION. Sys2Proof/Machine/Train.lean: the family `TRAIN` (R196, R197). -/

namespace Sys2Proof.Machine

/-- The active strategy's state after a training (R196: dispatch on `STRAT`) and the records made on the way; none in
`UNINIT`. Static's training is a no-op (R193). -/
def Engine.train (e : Engine) (histW : Nat) (p : Widths) (pc : Pc) (o : Direction) : Option (Engine × List DiagRecord) :=
  match e with
  | .uninit _ => none
  | .static => some (.static, [])
  | .gshare x => some (.gshare (gshareTrain histW p pc o x), [])
  | .tournament x => some (.tournament (tournamentTrain histW p pc o x), tournamentTrainDiag p pc x)
  | .custom x => some (.custom (customTrain histW p pc o x), (baseline p pc x).diag)

/-- `TRAIN pc, o` (R196): `ProtocolError` in `UNINIT` (R216); else the active strategy is trained. A `PREDICT` need not
have come before (R247). It stops only in a state whose widths give its index formulas no meaning (`Engine.stop`). -/
def execTrain (pc : Pc) (o : Direction) (s : State) : Host.Outcome State Fault Refusal :=
  match s.engine.stop s.cfg.histW s.widths with
  | some f => .fault f
  | none =>
    match s.engine.train s.cfg.histW s.widths pc o with
    | none => .next (raise .protocolError s)
    | some (e, diag) => .next (respond .ok diag .notTaken { s with engine := e })

end Sys2Proof.Machine
end

