-- ==== Sys2Proof/Machine/Dispatch.lean ====
section
/-! DEFINITION. Sys2Proof/Machine/Dispatch.lean: one arm per row of the opcode map (R87, R189). -/

namespace Sys2Proof.Machine

/-- One decoded command (R189). -/
def exec (i : Instr) (s : State) : Host.Outcome State Fault Refusal :=
  match i with
  | .initStatic p => Sys2Proof.Machine.execInitStatic p s
  | .initGshare p => Sys2Proof.Machine.execInitGshare p s
  | .initTournament p => Sys2Proof.Machine.execInitTournament p s
  | .initCustom p => Sys2Proof.Machine.execInitCustom p s
  | .initUnrecognised strat p => Sys2Proof.Machine.execInitUnrecognised strat p s
  | .predict pc => Sys2Proof.Machine.execPredict pc s
  | .train pc o => Sys2Proof.Machine.execTrain pc o s
  | .teardown => Sys2Proof.Machine.execTeardown s

end Sys2Proof.Machine
end

