-- ==== Sys2Proof/Machine/Step.lean ====
section
/-! DEFINITION. Sys2Proof/Machine/Step.lean: one step of the machine (R16, R189): accept one command, apply its rule,
emit its response; or, where the host presents none, one quiet cycle; or a hardware reset. -/

namespace Sys2Proof.Machine

/-- One step (R81, R189). An illegal word raises `IllegalCommand` before `MODE` is looked at (R215). -/
def step (s : State) : Host.Outcome State Fault Refusal :=
  match fetch s with
  | .idle s' => .next s'
  | .reset s' => .next (hardwareReset s')
  | .word w s' =>
    match decode w with
    | .ok i => exec i s'
    | .error _ => .next (raise .illegalCommand s')

/-- The state with the instruction whose bits are `w` presented on the command channel, ahead of anything the host has
already queued, and `cmd_ready` at 1, so that the next step accepts and runs it. The channel has 35 wires (R80). -/
def State.withFetchWord (s : State) (nbits w : Nat) : State :=
  present (BitVec.ofNat 35 (w % 2 ^ nbits)) s

end Sys2Proof.Machine
end

