-- ==== Sys2Proof/Machine/Assembler.lean ====
section
/-! DEFINITION. Sys2Proof/Machine/Assembler.lean: the assembler of R95 and R96, from lines already split into mnemonic
and numbers to command words. The engine never sees a pseudo-command. -/

namespace Sys2Proof.Machine

/-- The commands a line stands for: `BRANCH` is its `PREDICT` and `TRAIN`, `INIT.DEFAULT` is `INIT` with the observed
defaults 14, 10, 13, 10, 6 (R96). -/
def AsmLine.expand (a : AsmLine) : List AsmLine :=
  match a with
  | .init st g l c k t => [.init st g l c k t]
  | .initDefault st => [.init st 14 10 13 10 6]
  | .predict pc => [.predict pc]
  | .train pc o => [.train pc o]
  | .branch pc o => [.predict pc, .train pc o]
  | .teardown => [.teardown]

/-- The command of an expanded line whose numbers fit their fields (R83, R84, R95); none for one that does not fit or
is still a pseudo-command. -/
def AsmLine.instr (a : AsmLine) : Option Instr :=
  match a with
  | .init st g l c k t =>
    if st < 8 ∧ g < 64 ∧ l < 64 ∧ c < 64 ∧ k < 64 ∧ t < 64 then
      some (decodeInit (BitVec.ofNat 3 st)
        { g := BitVec.ofNat 6 g, l := BitVec.ofNat 6 l, c := BitVec.ofNat 6 c, k := BitVec.ofNat 6 k,
          t := BitVec.ofNat 6 t })
    else none
  | .predict pc => if pc < 2 ^ 32 then some (.predict (BitVec.ofNat 32 pc)) else none
  | .train pc o => if pc < 2 ^ 32 then some (.train (BitVec.ofNat 32 pc) o) else none
  | .teardown => some .teardown
  | .initDefault _ => none
  | .branch _ _ => none

/-- The command words of expanded lines, none if one does not assemble. -/
def wordsOf (lines : List AsmLine) : Option (List CmdWord) :=
  match lines with
  | [] => some []
  | a :: rest =>
    match AsmLine.instr a, wordsOf rest with
    | some i, some ws => some (encode i :: ws)
    | _, _ => none

/-- A program's command words (R95, R96). -/
def assemble (lines : List AsmLine) : Option (List CmdWord) :=
  wordsOf (lines.flatMap AsmLine.expand)

end Sys2Proof.Machine
end

