-- ==== Sys2Proof/Machine/Instances.lean ====
section
/-! DEFINITION. Sys2Proof/Machine/Instances.lean: several engines side by side (R232): each owns all its state and its
own ports, and a step of the system is a step of one of them. -/

namespace Sys2Proof.Machine

/-- Instance `n` takes one step; the others are untouched. An index that names no instance changes nothing. -/
def stepInstance (n : Nat) (engines : List State) : Host.Outcome (List State) Fault Refusal :=
  match engines, n with
  | [], _ => .next []
  | s :: rest, 0 =>
    match step s with
    | .next s' => .next (s' :: rest)
    | .fault f => .fault f
    | .refused r => .refused r
  | s :: rest, m + 1 =>
    match stepInstance m rest with
    | .next rest' => .next (s :: rest')
    | .fault f => .fault f
    | .refused r => .refused r

/-- The steps of the instances named, in that order. -/
def stepInstances (order : List Nat) (engines : List State) : Host.Outcome (List State) Fault Refusal :=
  match order with
  | [] => .next engines
  | n :: rest =>
    match stepInstance n engines with
    | .next engines' => stepInstances rest engines'
    | .fault f => .fault f
    | .refused r => .refused r

end Sys2Proof.Machine
end

