-- ==== Sys2Proof/Machine/Storage.lean ====
section
/-! DEFINITION. Sys2Proof/Machine/Storage.lean: the storage of each strategy as a list of address spaces (R60), with
what of it a command can reach (R61, R62), and its totals in bits (R47). -/

namespace Sys2Proof.Machine

/-- One address space of R60. -/
structure ArraySpace where
  name : TableName
  /-- The width of a cell, in bits. -/
  cellBits : Nat
  /-- How many cells it has. -/
  cells : Nat
  /-- How many bits of a cell are ever read: all but for a local history (R28). -/
  readBits : Nat
  /-- How many cells an index can name: all but for `T_CHOICE` when `L < G` (R33) and the caches when `K > C`
  (R62). -/
  addressed : Nat
deriving DecidableEq, Repr

/-- A space of `2^n` counter cells, `CTR_W = 2` bits each, of which `2^m` can be addressed. -/
def counterSpace (name : TableName) (n m : Nat) : ArraySpace where
  name := name
  cellBits := 2
  cells := 2 ^ n
  readBits := 2
  addressed := 2 ^ m

/-- The five spaces of one tagged cache (R35): two tag arrays, two counter arrays, the LRU bits; `2^K` sets, of which the
`2^C` lowest at most can be addressed (R62). -/
def cacheSpaces (c : CacheName) (p : Widths) : List ArraySpace :=
  let sets := 2 ^ p.k.toNat
  let reached := min p.c.toNat p.k.toNat
  let tags (w : WayNo) : ArraySpace :=
    { name := .yTag c w, cellBits := p.t.toNat, cells := sets, readBits := p.t.toNat, addressed := 2 ^ reached }
  [tags 0#1, tags 1#1, counterSpace (.yCtr c 0#1) p.k.toNat reached, counterSpace (.yCtr c 1#1) p.k.toNat reached,
    { name := .yLru c, cellBits := 1, cells := sets, readBits := 1, addressed := 2 ^ reached }]

/-- The address spaces of a strategy with those widths, the table of R60. -/
def arraySpaces (histW : Nat) (st : Strategy) (p : Widths) : List ArraySpace :=
  match st with
  | .static => []
  | .gshare => [counterSpace .gTable p.g.toNat p.g.toNat]
  | .tournament =>
    [counterSpace .tGlobal p.g.toNat p.g.toNat, counterSpace .tLocal p.l.toNat p.l.toNat,
      { name := .tLhist, cellBits := histW, cells := 2 ^ p.l.toNat, readBits := p.l.toNat,
        addressed := 2 ^ p.l.toNat },
      counterSpace .tChoice p.g.toNat p.l.toNat]
  | .custom => counterSpace .yChoice p.c.toNat p.c.toNat :: (cacheSpaces .tc p ++ cacheSpaces .nc p)

/-- The index a command with this `pc` addresses the space with, given the histories (the last column of R60). -/
def spaceIndex (p : Widths) (pc : Pc) (ghr : History) (localHist : Memory History) (name : TableName) : Nat :=
  match name with
  | .gTable => gIndex pc ghr p.g.toNat
  | .tGlobal => gIndex pc ghr p.g.toNat
  | .tLocal => localIndex localHist pc p.l.toNat
  | .tLhist => pcSlot pc p.l.toNat
  | .tChoice => pcSlot pc p.l.toNat
  | .yChoice => choiceIndex pc p.c.toNat
  | .yTag _ _ => cacheIndex pc ghr p.c.toNat p.k.toNat
  | .yCtr _ _ => cacheIndex pc ghr p.c.toNat p.k.toNat
  | .yLru _ => cacheIndex pc ghr p.c.toNat p.k.toNat

/-- The bits a space holds. -/
def ArraySpace.bits (a : ArraySpace) : Nat :=
  a.cells * a.cellBits

/-- The bits of a space that some command can read. -/
def ArraySpace.usedBits (a : ArraySpace) : Nat :=
  a.addressed * a.readBits

/-- The bits a list of spaces holds. -/
def spacesBits (spaces : List ArraySpace) : Nat :=
  (spaces.map ArraySpace.bits).sum

/-- The bits of `GHR`, which every strategy but Static has (R27, R37). -/
def ghrBits (histW : Nat) (st : Strategy) : Nat :=
  match st with
  | .static => 0
  | .gshare => histW
  | .tournament => histW
  | .custom => histW

/-- The bits of strategy state a strategy with those widths holds (R47). -/
def storageBits (histW : Nat) (st : Strategy) (p : Widths) : Nat :=
  spacesBits (arraySpaces histW st p) + ghrBits histW st

end Sys2Proof.Machine
end

