-- ==== Sys2Proof/Safety.lean ====
section
/-! DEFINITION. Sys2Proof/Safety.lean: what a sound state is, and what the host can observe of a run (R243), in the
terms the statements use. -/

namespace Sys2Proof.Safety

open Sys2Proof.Machine

/-- An array of `2^n` cells in canonical form (R26, R60). -/
structure ArraySound {α : Type} (m : Memory α) (n : Nat) : Prop where
  canonical : m.wf
  inRange : m.within n

/-- Every value a tag array can read is a `t`-bit value (R35). -/
structure TagsFit (m : Memory Tag) (t : Nat) : Prop where
  fill : m.fill.toNat < 2 ^ t
  cells : ∀ c ∈ m.cells, c.2.toNat < 2 ^ t

/-- Every history register of an array holds a value of `w` bits (R28). -/
def HistoriesFit (m : Memory History) (w : Nat) : Prop :=
  ∀ i, m.read i < 2 ^ w

/-- The tag-uniqueness invariant of one cache (R43): two ways of a set hold the same tag only while both hold the reset
tag `r`. -/
def TagsDistinct (c : Cache) (r : Tag) : Prop :=
  ∀ set, c.way0.tag.read set = c.way1.tag.read set → c.way0.tag.read set = r

/-- One tagged cache of `2^k` sets with `t`-bit tags, created by `INIT` from the configuration (R35, R43). -/
structure CacheSound (cfg : Config) (k t : Nat) (c : Cache) : Prop where
  tag0 : ArraySound c.way0.tag k
  ctr0 : ArraySound c.way0.ctr k
  tag1 : ArraySound c.way1.tag k
  ctr1 : ArraySound c.way1.ctr k
  lru : ArraySound c.lru k
  fit0 : TagsFit c.way0.tag t
  fit1 : TagsFit c.way1.tag t
  distinct : TagsDistinct c (tagBits cfg.rstYTag t)

/-- The strategy state is one that the stored widths describe: every width legal (R23), every array of the stated size
(R26, R60), every history a value of `HIST_W` bits (R27, R28), `L <= G` under Tournament (R33). -/
def EngineSound (cfg : Config) (p : Widths) (e : Engine) : Prop :=
  match e with
  | .uninit _ => True
  | .static => widthsLegal cfg.maxBits p
  | .gshare x => widthsLegal cfg.maxBits p ∧ x.ghr < 2 ^ cfg.histW ∧ ArraySound x.table p.g.toNat
  | .tournament x =>
    widthsLegal cfg.maxBits p ∧ p.l.toNat ≤ p.g.toNat
      ∧ x.ghr < 2 ^ cfg.histW ∧ HistoriesFit x.localHist cfg.histW
      ∧ ArraySound x.globalTable p.g.toNat ∧ ArraySound x.localTable p.l.toNat
      ∧ ArraySound x.localHist p.l.toNat ∧ ArraySound x.choice p.g.toNat
  | .custom x =>
    widthsLegal cfg.maxBits p ∧ x.ghr < 2 ^ cfg.histW ∧ ArraySound x.choice p.c.toNat
      ∧ CacheSound cfg p.k.toNat p.t.toNat x.tc ∧ CacheSound cfg p.k.toNat p.t.toNat x.nc

/-- THE INVARIANT of the machine between steps: the parameters are ones the rules are written for, the engine is ready
for the next command (R81), and the strategy state is sound. -/
structure Sound (s : State) : Prop where
  config : s.cfg.wf
  quiescent : s.cmdReady = true
  engine : EngineSound s.cfg s.widths s.engine

/-- The responses of the next `n` steps, one entry a step: `some word` where `rsp_valid` was raised. What the host can
observe of a run (R225, R243); a run that stops answers no more. -/
def observe (n : Nat) (s : State) : List (Option RspWord) :=
  match n with
  | 0 => []
  | m + 1 =>
    match step s with
    | .next t => t.rsp :: observe m t
    | .fault _ => []
    | .refused _ => []

/-- `s` with the command answered by the response word `r` and nothing else changed (R81, R88): `cmd_ready` is 1, the
response is presented, and no diagnostic record goes with it. -/
def answered (r : RspWord) (s : State) : State :=
  { s with cmdReady := true, rsp := some r, diagRecords := [] }

/-- The response word of a `PREDICT` that answers `d` (R202): `OK T` is `0b0001`, `OK N` is `0b0000`. -/
def predictionWord (d : Direction) : RspWord :=
  if d = .taken then 0b0001#4 else 0b0000#4

/-- Answered `CONFIG_ERROR` and left `UNINIT` (R192, R214), whatever was there before: `t` after an `INIT` failed in
`s`. What the released registers hold is not said: no rule gives it (R53). -/
structure FailedInit (s t : State) : Prop where
  mode : t.mode = .uninit
  rsp : t.rsp = some 0b0100#4
  noDiag : t.diagRecords = []
  ready : t.cmdReady = true
  cfg : t.cfg = s.cfg
  inputs : t.inputs = s.inputs

/-- Two states no command can tell apart (R51, spec/93 U12, U13): the same machine, channel and strategy state, and the
same widths unless both are `UNINIT`, when `STRAT` and the widths may be anything. The MODEL's free-value counter is
not compared. -/
structure Indistinguishable (a b : State) : Prop where
  cfg : a.cfg = b.cfg
  inputs : a.inputs = b.inputs
  cmdReady : a.cmdReady = b.cmdReady
  engine : (a.mode = .uninit ∧ b.mode = .uninit) ∨ (a.engine = b.engine ∧ a.widths = b.widths)

/-- Two history registers equal in the `n` bits that are ever read (R29). -/
def SameLow (n : Nat) (a b : History) : Prop :=
  lowerBits a n = lowerBits b n

/-- The same strategy state but for history bits above the consuming index width (R29): `G` for `GHR` under Gshare and
Tournament, `C` under Custom, `L` for every local history. -/
def SameButHighHistory (p : Widths) (a b : Engine) : Prop :=
  match a, b with
  | .gshare x, .gshare y => x.table = y.table ∧ SameLow p.g.toNat x.ghr y.ghr
  | .tournament x, .tournament y =>
    x.globalTable = y.globalTable ∧ x.localTable = y.localTable ∧ x.choice = y.choice
      ∧ SameLow p.g.toNat x.ghr y.ghr
      ∧ ∀ i, SameLow p.l.toNat (x.localHist.read i) (y.localHist.read i)
  | .custom x, .custom y =>
    x.choice = y.choice ∧ x.tc = y.tc ∧ x.nc = y.nc ∧ SameLow p.c.toNat x.ghr y.ghr
  | x, y => x = y

/-- Two machines equal but for `HIST_W` and for the history bits above the consuming index width (R29, spec/93 U9):
the parameters of each are ones the rules are written for, so that both registers are wide enough, and the stored
widths are legal while `READY` (R23). -/
structure HistoryEquivalent (a b : State) : Prop where
  cfg : { a.cfg with histW := b.cfg.histW } = b.cfg
  wideA : a.cfg.wf
  wideB : b.cfg.wf
  legal : a.mode = .ready → widthsLegal a.cfg.maxBits a.widths
  widths : a.widths = b.widths
  inputs : a.inputs = b.inputs
  cmdReady : a.cmdReady = b.cmdReady
  freeCount : a.freeCount = b.freeCount
  engine : SameButHighHistory a.widths a.engine b.engine

end Sys2Proof.Safety
end

