-- ==== Sys2Proof/Certificates/Slice0/Obligations.lean ====
section
/-! DEFINITION. Sys2Proof/Certificates/Slice0/Obligations.lean: the statements for the provers, in the order of the
spec's files. -/

open Sys2Proof Sys2Proof.Machine Sys2Proof.Safety

/-! ### The saturating counter (spec/40_counter.md) -/

/-- R111 and the full transition table of R112, cell values as R110 numbers the levels: 0 = SN, 1 = WN, 2 = WT,
3 = ST. -/
def Obligations.CounterTransitionTable : Prop :=
  ctrPredict 0#2 = .notTaken ∧ ctrPredict 1#2 = .notTaken ∧ ctrPredict 2#2 = .taken ∧ ctrPredict 3#2 = .taken
    ∧ ctrUpdate 0#2 .taken = 1#2 ∧ ctrUpdate 0#2 .notTaken = 0#2
    ∧ ctrUpdate 1#2 .taken = 2#2 ∧ ctrUpdate 1#2 .notTaken = 0#2
    ∧ ctrUpdate 2#2 .taken = 3#2 ∧ ctrUpdate 2#2 .notTaken = 1#2
    ∧ ctrUpdate 3#2 .taken = 3#2 ∧ ctrUpdate 3#2 .notTaken = 2#2

/-- R115: `ctr_update` is monotone in both senses, and from any level three or more equal outcomes reach the end of
their side and stay there. -/
def Obligations.CounterMonotoneAndSaturating : Prop :=
  ∀ c : Counter,
    (c ≤ ctrUpdate c .taken ∧ ctrUpdate c .notTaken ≤ c)
      ∧ (∀ c' o, c ≤ c' → ctrUpdate c o ≤ ctrUpdate c' o)
      ∧ (∀ n, 3 ≤ n → (fun x => ctrUpdate x .taken)^[n] c = 3#2)
      ∧ (∀ n, 3 ≤ n → (fun x => ctrUpdate x .notTaken)^[n] c = 0#2)

/-! ### Bit-field utilities (spec/41_bitfield.md) -/

/-- R120, for a value of any width `W`: `value & ((1 << n) - 1)`, that is `value mod 2^n`, for every `n` up to `W`;
`n = W` gives the value back and `n = 0` gives 0. In the engine `W` is 32 for a `pc` or a key and `HIST_W` for a
history. -/
def Obligations.LowerBitsMasksTheValue : Prop :=
  ∀ W v n : Nat, v < 2 ^ W → n ≤ W →
    lowerBits v n = v &&& (1 <<< n - 1)
      ∧ lowerBits v n = v % 2 ^ n
      ∧ lowerBits v W = v ∧ lowerBits v 0 = 0

/-- R121, the spec's own inference from R120: range, distribution over exclusive-or, and nesting. -/
def Obligations.LowerBitsLaws : Prop :=
  ∀ W a b m n : Nat, a < 2 ^ W → b < 2 ^ W → n ≤ W → m ≤ W →
    lowerBits a n ≤ 2 ^ n - 1
      ∧ lowerBits a n ^^^ lowerBits b n ≤ 2 ^ n - 1
      ∧ lowerBits a n ^^^ lowerBits b n = lowerBits (a ^^^ b) n
      ∧ lowerBits (lowerBits a m) n = lowerBits a (min m n)

/-- R122, for a history register of any width `HIST_W >= 1` (the spec's 32 among them): the top bit is discarded, every
other bit moves up one place, bit 0 becomes the outcome (`Taken = 1`), and the result fits in the register. -/
def Obligations.ShiftInMovesEveryBitUp : Prop :=
  ∀ (histW : Nat) (h : History) (o : Direction), 1 ≤ histW → h < 2 ^ histW →
    shiftIn histW h o = (2 * h + (if o = .taken then 1 else 0)) % 2 ^ histW
      ∧ shiftIn histW h o < 2 ^ histW
      ∧ (shiftIn histW h o).testBit 0 = (o == .taken)
      ∧ ∀ i, i + 1 < histW → (shiftIn histW h o).testBit (i + 1) = h.testBit i

/-- R123, the spec's own inference from R122: what a history register holds after the outcomes `os`, oldest first, from
0: the sum of `o_i * 2^(m-i)` mod `2^HIST_W`, whose bits at positions `m` and above are 0. -/
def Obligations.HistoryHoldsTheOutcomes : Prop :=
  ∀ (histW : Nat) (os : List Direction),
    os.foldl (shiftIn histW) 0
        = (∑ i : Fin os.length, (if os.get i = .taken then 1 else 0) * 2 ^ (os.length - 1 - i.val)) % 2 ^ histW
      ∧ ∀ j, os.length ≤ j → (os.foldl (shiftIn histW) 0).testBit j = false

/-- R125, the spec's own inference: the low `n` bits of the next history depend only on the low `n` bits of the current
one and the outcome; and so, for any two registers of at least `n` bits, on nothing else, their widths included. -/
def Obligations.ShiftInLowBitsLemma : Prop :=
  ∀ (histW histW' : Nat) (h h' : History) (o : Direction) (n : Nat), n ≤ histW → n ≤ histW' →
    lowerBits (shiftIn histW h o) n = lowerBits (shiftIn histW (lowerBits h n) o) n
      ∧ (lowerBits h n = lowerBits h' n → lowerBits (shiftIn histW h o) n = lowerBits (shiftIn histW' h' o) n)

/-- R135, the spec's own inference: `n` trainings with one constant outcome fix the low `n` bits of any history, so that
from then on every further training of the same `pc` has the same index. -/
def Obligations.ConstantOutcomeSettlesTheIndex : Prop :=
  ∀ (histW : Nat) (pc : Pc) (h : History) (o : Direction) (n m : Nat), n ≤ histW → n ≤ m →
    lowerBits ((fun x => shiftIn histW x o)^[m] h) n = (if o = .taken then 2 ^ n - 1 else 0)
      ∧ gIndex pc ((fun x => shiftIn histW x o)^[m] h) n = gIndex pc ((fun x => shiftIn histW x o)^[n] h) n

/-- The index and tag formulas of R130 (and R140), R141, R142, R160, R161, R162 and R163, as arithmetic on the operands:
`pc` is used as it is, history takes part where the rule says so and nowhere else. -/
def Obligations.DerivedIndexFormulas : Prop :=
  ∀ (pc : Pc) (ghr : History) (lhist : Memory History) (g l c k t : Nat),
    g ≤ 32 → l ≤ 32 → c ≤ 32 → k ≤ 32 → t ≤ 32 →
    gIndex pc ghr g = (pc.toNat % 2 ^ g) ^^^ (ghr % 2 ^ g) ∧ gIndex pc ghr g < 2 ^ g
      ∧ gIndex pc 0 g = pc.toNat % 2 ^ g
      ∧ pcSlot pc l = pc.toNat % 2 ^ l
      ∧ localIndex lhist pc l = lhist.read (pc.toNat % 2 ^ l) % 2 ^ l
      ∧ choiceIndex pc c = pc.toNat % 2 ^ c
      ∧ cacheKey pc ghr c = (pc.toNat % 2 ^ c) ^^^ (ghr % 2 ^ c)
      ∧ cacheIndex pc ghr c k = ((pc.toNat % 2 ^ c) ^^^ (ghr % 2 ^ c)) % 2 ^ k
      ∧ (tagOf pc t).toNat = pc.toNat % 2 ^ t

/-! ### Storage (R47, R60 to R62) -/

/-- R47, the spec's own inference: the bits of strategy state each strategy holds, for any widths and `HIST_W`, the
totals of the observed defaults, and how many bits of `T_LHIST` and `T_CHOICE` any command can read. -/
def Obligations.StorageTotals : Prop :=
  (∀ (histW : Nat) (p : Widths),
    storageBits histW .static p = 0
      ∧ storageBits histW .gshare p = 2 ^ p.g.toNat * 2 + histW
      ∧ storageBits histW .tournament p
          = 2 ^ p.g.toNat * 2 + 2 ^ p.l.toNat * 2 + 2 ^ p.l.toNat * histW + 2 ^ p.g.toNat * 2 + histW
      ∧ storageBits histW .custom p
          = 2 ^ p.c.toNat * 2 + 2 * (2 * 2 ^ p.k.toNat * (p.t.toNat + 2) + 2 ^ p.k.toNat) + histW)
    ∧ (arraySpaces 32 .gshare ⟨14, 10, 13, 10, 6⟩).map ArraySpace.bits = [32768]
    ∧ (arraySpaces 32 .tournament ⟨14, 10, 13, 10, 6⟩).map ArraySpace.bits = [32768, 2048, 32768, 32768]
    ∧ (arraySpaces 32 .tournament ⟨14, 10, 13, 10, 6⟩).map ArraySpace.usedBits = [32768, 2048, 10240, 2048]
    ∧ (counterSpace .yChoice 13 13).bits = 16384
    ∧ spacesBits (cacheSpaces .tc ⟨14, 10, 13, 10, 6⟩) = 17408
    ∧ storageBits 32 .custom ⟨14, 10, 13, 10, 6⟩ = 16384 + 34816 + 32

/-- R61 and R62, the spec's own inferences: with widths an `INIT` admits, every index a command forms names a cell that
its array has, and in `T_CHOICE` and the caches one of the addressed cells (`2^L`, and `2^C` where `K > C`). -/
def Obligations.IndicesStayInsideTheirArrays : Prop :=
  ∀ (cfg : Config) (p : Widths) (st : Strategy) (pc : Pc) (ghr : History) (lhist : Memory History),
    cfg.wf → widthsLegal cfg.maxBits p → (st = .tournament → p.l.toNat ≤ p.g.toNat) →
      ∀ a ∈ arraySpaces cfg.histW st p,
        a.addressed ≤ a.cells ∧ a.readBits ≤ a.cellBits ∧ a.usedBits ≤ a.bits
          ∧ spaceIndex p pc ghr lhist a.name < a.addressed

/-! ### Encoding (spec/30_encoding.md) -/

/-- Decode and encode agree on every well-formed command, every operand at every value its field admits. -/
def Obligations.DecodeOfEncode : Prop :=
  ∀ i : Instr, WellFormed i = true → decode (encode i) = .ok i

/-- Each word has one meaning: what decodes is well formed and encodes back to the same word. -/
def Obligations.EncodeOfDecode : Prop :=
  ∀ (w : CmdWord) (i : Instr), decode w = .ok i → WellFormed i = true ∧ encode i = w

/-- R87: a word decodes to a command of a row exactly when it selects the row by the row's mask and match as the table
prints them, so the rows are disjoint; and with the two illegal classes of R91 they cover every word. -/
def Obligations.OpcodeMapDecides : Prop :=
  ∀ w : CmdWord,
    (w &&& 0x7C0000000#35 = 0x000000000#35 ↔ ∃ p, decode w = .ok (.initStatic p))
      ∧ (w &&& 0x7C0000000#35 = 0x040000000#35 ↔ ∃ p, decode w = .ok (.initGshare p))
      ∧ (w &&& 0x7C0000000#35 = 0x080000000#35 ↔ ∃ p, decode w = .ok (.initTournament p))
      ∧ (w &&& 0x7C0000000#35 = 0x0C0000000#35 ↔ ∃ p, decode w = .ok (.initCustom p))
      ∧ (w &&& 0x700000000#35 = 0x100000000#35 ↔ ∃ st p, decode w = .ok (.initUnrecognised st p))
      ∧ (w &&& 0x700000000#35 = 0x200000000#35 ↔ ∃ pc, decode w = .ok (.predict pc))
      ∧ (w &&& 0x600000000#35 = 0x400000000#35 ↔ ∃ pc o, decode w = .ok (.train pc o))
      ∧ (w &&& 0x7FFFFFFFF#35 = 0x600000000#35 ↔ decode w = .ok .teardown)
      ∧ (w &&& 0x700000000#35 = 0x300000000#35 ↔ decode w = .error .predictOutcomeBit)
      ∧ (w &&& 0x600000000#35 = 0x600000000#35 ∧ w ≠ 0x600000000#35 ↔ decode w = .error .teardownReservedBits)

/-- A few words of R97 and of the encoding vectors, each decoding to the command it stands for or refused. -/
def Obligations.SampleWordsDecode : Prop :=
  decode 0x00E28D286#35 = .ok (.initStatic ⟨14, 10, 13, 10, 6⟩)
    ∧ decode 0x04E28D286#35 = .ok (.initGshare ⟨14, 10, 13, 10, 6⟩)
    ∧ decode 0x08E28D286#35 = .ok (.initTournament ⟨14, 10, 13, 10, 6⟩)
    ∧ decode 0x0CE28D286#35 = .ok (.initCustom ⟨14, 10, 13, 10, 6⟩)
    ∧ decode 0x100000000#35 = .ok (.initUnrecognised 4#3 ⟨0, 0, 0, 0, 0⟩)
    ∧ decode 0x2DEADBEEF#35 = .ok (.predict 0xDEADBEEF#32)
    ∧ decode 0x5DEADBEEF#35 = .ok (.train 0xDEADBEEF#32 .taken)
    ∧ decode 0x400000000#35 = .ok (.train 0#32 .notTaken)
    ∧ decode 0x600000000#35 = .ok .teardown
    ∧ decode 0x300000000#35 = .error .predictOutcomeBit
    ∧ decode 0x600000001#35 = .error .teardownReservedBits

/-- R96: `BRANCH pc, o` is `PREDICT pc` followed by `TRAIN pc, o`; `INIT.DEFAULT strategy` is `INIT strategy` with the
observed defaults 14, 10, 13, 10, 6, the strategy being one of the four or any code the field can hold. -/
def Obligations.PseudoCommandsExpand : Prop :=
  (∀ (pc : Nat) (o : Direction), pc < 2 ^ 32 →
      assemble [.branch pc o]
        = some [encode (.predict (BitVec.ofNat 32 pc)), encode (.train (BitVec.ofNat 32 pc) o)])
    ∧ ∀ st : Nat, st < 8 →
        assemble [.initDefault st] = some [encode (decodeInit (BitVec.ofNat 3 st) ⟨14, 10, 13, 10, 6⟩)]

/-! ### The step, the channel and the resets (R81, R189, R51, R241) -/

/-- A step runs the decoded command: when `cmd_valid` and `cmd_ready` are both 1 and the word decodes to `i`, the step is
`exec i` after the accepting edge, which takes the word off the channel, ends the previous response and drops
`cmd_ready` (R81). -/
def Obligations.StepRunsTheDecodedCommand : Prop :=
  ∀ (s : State) (w : CmdWord) (rest : List HostInput) (i : Instr),
    s.inputs = .command w :: rest → s.cmdReady = true → decode w = .ok i →
      step s = exec i { s with inputs := rest, cmdReady := false, rsp := none, diagRecords := [] }

/-- R215: exactly the two classes of illegal word are answered `ILLEGAL_COMMAND`, in either mode, with no state changed
but the channel's. -/
def Obligations.IllegalWordsAreAnswered : Prop :=
  ∀ (s : State) (w : CmdWord) (rest : List HostInput),
    s.inputs = .command w :: rest → s.cmdReady = true →
      ((w &&& 0x700000000#35 = 0x300000000#35
            ∨ (w &&& 0x600000000#35 = 0x600000000#35 ∧ w ≠ 0x600000000#35)) →
          step s = .next (answered 0b1100#4 { s with inputs := rest }))
        ∧ (∀ t, step s = .next t → t.rsp = some 0b1100#4 →
            (w &&& 0x700000000#35 = 0x300000000#35
              ∨ (w &&& 0x600000000#35 = 0x600000000#35 ∧ w ≠ 0x600000000#35)))

/-- With nothing presented the engine holds its state; a response is presented for one step only (the model's reading of
R80 and R226, assumption 2). -/
def Obligations.QuietStepHoldsTheState : Prop :=
  ∀ s : State, s.inputs = [] →
    step s = .next { s with cmdReady := true, rsp := none, diagRecords := [] }

/-- Hardware reset, with or without a command in flight (R51, R240, R241): `MODE = UNINIT`, no response, `cmd_ready = 1`;
the abandoned command leaves no trace. That later inputs and the parameters stay is the model's (assumption 14). -/
def Obligations.HardwareResetLeavesUninit : Prop :=
  ∀ (s : State) (inFlight : Option CmdWord) (rest : List HostInput),
    s.inputs = .hardwareReset inFlight :: rest →
      ∃ t, step s = .next t ∧ t.mode = .uninit ∧ t.rsp = none ∧ t.diagRecords = [] ∧ t.cmdReady = true
        ∧ t.inputs = rest ∧ t.cfg = s.cfg
        ∧ step { s with inputs := .hardwareReset none :: rest } = .next t

/-- The power-on state (R51, R241) and the parameters' values (R9, R50). The values of `STRAT` and of the five widths are
the model's choice (assumption 4) and are not stated. -/
def Obligations.PowerOnState : Prop :=
  State.reset.mode = .uninit ∧ State.reset.cmdReady = true ∧ State.reset.rsp = none
    ∧ State.reset.cfg.maxBits = 32 ∧ State.reset.cfg.histW = 32 ∧ State.reset.cfg.rstGhr = 0
    ∧ State.reset.cfg.rstTGlobal = WN ∧ State.reset.cfg.rstTLocal = WN ∧ State.reset.cfg.rstTChoice = WN
    ∧ State.reset.cfg.rstTLhist = 0 ∧ State.reset.cfg.rstYChoice = WN ∧ State.reset.cfg.rstYCtr = WN
    ∧ State.reset.cfg.rstYTag = 0#32 ∧ State.reset.cfg.rstYLru = 0#1

/-! ### INIT (R190 to R192, R201, R211, R212) -/

/-- R193, all three commands under Static: `INIT.STATIC` with legal widths creates no strategy state, `PREDICT` answers
`Taken` for every `pc`, `TRAIN` changes nothing and answers `OK`; and the widths are still range-checked. -/
def Obligations.StaticStrategy : Prop :=
  (∀ (p : Widths) (s : State), widthsLegal s.cfg.maxBits p →
      exec (.initStatic p) s = .next (answered 0b0000#4 { s with engine := .static, widths := p }))
    ∧ (∀ (p : Widths) (s : State), ¬ widthsLegal s.cfg.maxBits p →
        ∃ t, exec (.initStatic p) s = .next t ∧ FailedInit s t)
    ∧ (∀ (pc : Pc) (s : State), s.engine = .static → exec (.predict pc) s = .next (answered 0b0001#4 s))
    ∧ ∀ (pc : Pc) (o : Direction) (s : State), s.engine = .static →
        exec (.train pc o) s = .next (answered 0b0000#4 s)

/-- R131: in either mode a legal `INIT.GSHARE` stores the five widths, makes every `G_TABLE` cell `WN` and `GHR` 0, and
changes nothing else. -/
def Obligations.InitGshareResult : Prop :=
  ∀ (p : Widths) (s : State), widthsLegal s.cfg.maxBits p →
    ∃ x : GshareState,
      exec (.initGshare p) s = .next (answered 0b0000#4 { s with engine := .gshare x, widths := p })
        ∧ x.ghr = 0 ∧ (∀ i, x.table.read i = 1#2) ∧ ArraySound x.table p.g.toNat

/-- R143: in either mode a legal `INIT.TOURNAMENT` with `L <= G` stores the five widths and gives every array and `GHR`
its reset parameter. -/
def Obligations.InitTournamentResult : Prop :=
  ∀ (p : Widths) (s : State), widthsLegal s.cfg.maxBits p → p.l.toNat ≤ p.g.toNat →
    ∃ x : TournamentState,
      exec (.initTournament p) s = .next (answered 0b0000#4 { s with engine := .tournament x, widths := p })
        ∧ x.ghr = s.cfg.rstGhr
        ∧ (∀ i, x.globalTable.read i = s.cfg.rstTGlobal) ∧ ArraySound x.globalTable p.g.toNat
        ∧ (∀ i, x.localTable.read i = s.cfg.rstTLocal) ∧ ArraySound x.localTable p.l.toNat
        ∧ (∀ i, x.localHist.read i = s.cfg.rstTLhist) ∧ ArraySound x.localHist p.l.toNat
        ∧ (∀ i, x.choice.read i = s.cfg.rstTChoice) ∧ ArraySound x.choice p.g.toNat

/-- R165: in either mode a legal `INIT.CUSTOM` stores the five widths and gives every array of both caches, `Y_CHOICE`
and `GHR` its reset parameter. The tag clause is for a `RST_Y_TAG` that is a `T`-bit value, as the spec's is. -/
def Obligations.InitCustomResult : Prop :=
  ∀ (p : Widths) (s : State), widthsLegal s.cfg.maxBits p → s.cfg.rstYTag.toNat < 2 ^ p.t.toNat →
    ∃ x : CustomState,
      exec (.initCustom p) s = .next (answered 0b0000#4 { s with engine := .custom x, widths := p })
        ∧ x.ghr = s.cfg.rstGhr
        ∧ (∀ i, x.choice.read i = s.cfg.rstYChoice) ∧ ArraySound x.choice p.c.toNat
        ∧ ∀ c ∈ [x.tc, x.nc],
            (∀ y ∈ [c.way0, c.way1],
              (∀ i, y.tag.read i = s.cfg.rstYTag) ∧ (∀ i, y.ctr.read i = s.cfg.rstYCtr)
                ∧ ArraySound y.tag p.k.toNat ∧ ArraySound y.ctr p.k.toNat)
              ∧ (∀ i, c.lru.read i = s.cfg.rstYLru) ∧ ArraySound c.lru p.k.toNat

/-- R212: an `INIT` of a recognised strategy with any width 0 or above `MAX_BITS`, whatever the strategy, and an
`INIT.TOURNAMENT` with `L > G`, fail with `ConfigurationError` and leave `UNINIT`. -/
def Obligations.OutOfRangeWidthsFail : Prop :=
  ∀ (p : Widths) (s : State),
    ((∃ v ∈ [p.g, p.l, p.c, p.k, p.t], v.toNat = 0 ∨ s.cfg.maxBits < v.toNat) →
        ∀ i ∈ [Instr.initStatic p, .initGshare p, .initTournament p, .initCustom p],
          ∃ t, exec i s = .next t ∧ FailedInit s t)
      ∧ (p.g.toNat < p.l.toNat → ∃ t, exec (.initTournament p) s = .next t ∧ FailedInit s t)

/-- R211: an `INIT` whose `strat` field is 4 to 7 fails with `ConfigurationError` in either mode whatever its widths:
`MODE` is `UNINIT`, the previous strategy state is gone, and no strategy is substituted. -/
def Obligations.UnrecognisedStrategyFails : Prop :=
  ∀ (strat : BitVec 3) (p : Widths) (s : State), 4 ≤ strat.toNat →
    ∃ t, exec (.initUnrecognised strat p) s = .next t ∧ FailedInit s t

/-- R201: an `INIT` in `READY` behaves as `TEARDOWN` followed by that `INIT`: the same response, and states no command
can tell apart; the same machine exactly where the `INIT` succeeds. -/
def Obligations.ReinitialisationIsTeardownThenInit : Prop :=
  ∀ (i : Instr) (p : Widths) (st : BitVec 3) (s t u v : State),
    i ∈ [Instr.initStatic p, .initGshare p, .initTournament p, .initCustom p, .initUnrecognised st p] →
    WellFormed i = true → s.mode = .ready →
    exec i s = .next t → exec .teardown s = .next u → exec i u = .next v →
      v.rsp = t.rsp ∧ Indistinguishable v t ∧ (t.mode = .ready → v.engine = t.engine ∧ v.widths = t.widths)

/-! ### PREDICT (R194, R195, R132, R145, R166) -/

/-- R132 under the index formula of R130: the answer is the prediction of `G_TABLE[gIndex]`; nothing is written; two
`pc` values with equal low `G` bits get the same answer. -/
def Obligations.PredictUnderGshare : Prop :=
  ∀ (pc : Pc) (s : State) (x : GshareState), s.engine = .gshare x →
    s.widths.g.toNat ≤ indexLimit s.cfg.histW →
    exec (.predict pc) s
        = .next (answered (predictionWord (ctrPredict (x.table.read (gIndex pc x.ghr s.widths.g.toNat)))) s)
      ∧ ∀ pc', lowerBits pc'.toNat s.widths.g.toNat = lowerBits pc.toNat s.widths.g.toNat →
          exec (.predict pc') s = exec (.predict pc) s

/-- R145 with the polarity of R144: the local prediction when the choice cell of the `pc`'s slot is on the Taken side,
else the global one; nothing is written; when both agree the choice cell has no influence. -/
def Obligations.PredictUnderTournament : Prop :=
  ∀ (pc : Pc) (s : State) (x : TournamentState), s.engine = .tournament x →
    s.widths.g.toNat ≤ indexLimit s.cfg.histW → s.widths.l.toNat ≤ s.widths.g.toNat →
      let gi := gIndex pc x.ghr s.widths.g.toNat
      let ps := pcSlot pc s.widths.l.toNat
      let li := lowerBits (x.localHist.read ps) s.widths.l.toNat
      let gpred := ctrPredict (x.globalTable.read gi)
      let lpred := ctrPredict (x.localTable.read li)
      exec (.predict pc) s
          = .next (answered
              (predictionWord (if x.choice.read ps = 2#2 ∨ x.choice.read ps = 3#2 then lpred else gpred)) s)
        ∧ (gpred = lpred → exec (.predict pc) s = .next (answered (predictionWord gpred) s))

/-- R166 with the lookup of R164: a tag hit in the cache the baseline selects, way 0 examined first, overrides the
baseline; a miss answers the baseline; nothing is written, the LRU bits included. -/
def Obligations.PredictUnderCustom : Prop :=
  ∀ (pc : Pc) (s : State) (x : CustomState), s.engine = .custom x →
    s.widths.c.toNat ≤ indexLimit s.cfg.histW → s.widths.k.toNat ≤ 32 → s.widths.t.toNat ≤ 32 →
      let base := ctrPredict (x.choice.read (choiceIndex pc s.widths.c.toNat))
      let set := cacheIndex pc x.ghr s.widths.c.toNat s.widths.k.toNat
      let tg := tagOf pc s.widths.t.toNat
      let cache := if base = .taken then x.tc else x.nc
      (cache.way0.tag.read set = tg →
          exec (.predict pc) s = .next (answered (predictionWord (ctrPredict (cache.way0.ctr.read set))) s))
        ∧ (cache.way0.tag.read set ≠ tg → cache.way1.tag.read set = tg →
            exec (.predict pc) s = .next (answered (predictionWord (ctrPredict (cache.way1.ctr.read set))) s))
        ∧ (cache.way0.tag.read set ≠ tg → cache.way1.tag.read set ≠ tg →
            exec (.predict pc) s = .next (answered (predictionWord base) s))

/-- R195: a `PREDICT` changes nothing but the response, and after it, or after any other `PREDICT`, the same `pc` is
answered the same. -/
def Obligations.PredictIsPure : Prop :=
  ∀ (pc : Pc) (s t : State), exec (.predict pc) s = .next t →
    (∃ r, t = answered r s)
      ∧ ∀ (pc' : Pc) (u : State), exec (.predict pc') t = .next u →
          ∃ v, exec (.predict pc) u = .next v ∧ v.rsp = t.rsp

/-- R216: in `UNINIT`, `PREDICT`, `TRAIN` and `TEARDOWN` answer `PROTOCOL_ERROR` and change no state. -/
def Obligations.UninitIsProtocolError : Prop :=
  ∀ (s : State) (pc : Pc) (o : Direction), s.mode = .uninit →
    ∀ i ∈ [Instr.predict pc, .train pc o, .teardown], exec i s = .next (answered 0b1000#4 s)

/-! ### TRAIN (R196, R197, R133, R146, R147, R167 to R170) -/

/-- R133: the cell at the index taken from the history before the command steps toward the outcome, every other cell is
unchanged, the outcome enters `GHR`, and nothing else changes. -/
def Obligations.TrainUnderGshare : Prop :=
  ∀ (pc : Pc) (o : Direction) (s : State) (x : GshareState), s.engine = .gshare x →
    s.widths.g.toNat ≤ indexLimit s.cfg.histW →
    let i := gIndex pc x.ghr s.widths.g.toNat
    ∃ y : GshareState, exec (.train pc o) s = .next (answered 0b0000#4 { s with engine := .gshare y })
      ∧ y.ghr = shiftIn s.cfg.histW x.ghr o
      ∧ y.table.read i = ctrUpdate (x.table.read i) o
      ∧ ∀ j, j ≠ i → y.table.read j = x.table.read j

/-- R146, with R147 and R149 for the choice table: both sub-tables step with the outcome whichever was selected, both
histories take the outcome in; the choice cell of the slot is written only when the sub-predictions disagree, and then
steps toward local exactly when the local prediction matched the outcome; every index comes from the state before; every
other cell is unchanged, and nothing else changes. -/
def Obligations.TrainUnderTournament : Prop :=
  ∀ (pc : Pc) (o : Direction) (s : State) (x : TournamentState), s.engine = .tournament x →
    s.widths.g.toNat ≤ indexLimit s.cfg.histW → s.widths.l.toNat ≤ s.widths.g.toNat →
      let gi := gIndex pc x.ghr s.widths.g.toNat
      let ps := pcSlot pc s.widths.l.toNat
      let li := lowerBits (x.localHist.read ps) s.widths.l.toNat
      let gpred := ctrPredict (x.globalTable.read gi)
      let lpred := ctrPredict (x.localTable.read li)
      ∃ y : TournamentState, exec (.train pc o) s = .next (answered 0b0000#4 { s with engine := .tournament y })
        ∧ y.ghr = shiftIn s.cfg.histW x.ghr o
        ∧ y.globalTable.read gi = ctrUpdate (x.globalTable.read gi) o
        ∧ (∀ j, j ≠ gi → y.globalTable.read j = x.globalTable.read j)
        ∧ y.localTable.read li = ctrUpdate (x.localTable.read li) o
        ∧ (∀ j, j ≠ li → y.localTable.read j = x.localTable.read j)
        ∧ y.localHist.read ps = shiftIn s.cfg.histW (x.localHist.read ps) o
        ∧ (∀ j, j ≠ ps → y.localHist.read j = x.localHist.read j)
        ∧ (lpred = gpred → y.choice = x.choice)
        ∧ (lpred ≠ gpred → o = lpred → y.choice.read ps = ctrUpdate (x.choice.read ps) .taken)
        ∧ (lpred ≠ gpred → o ≠ lpred → y.choice.read ps = ctrUpdate (x.choice.read ps) .notTaken)
        ∧ ∀ j, j ≠ ps → y.choice.read j = x.choice.read j

/-- R167's unconditional half: every `TRAIN` under Custom steps the choice cell of the `pc` with the outcome (R176) and
shifts the outcome into `GHR`; the cache the baseline did not select is untouched; the selected one changes in the one
set of the index at most; nothing else changes. -/
def Obligations.TrainUnderCustom : Prop :=
  ∀ (pc : Pc) (o : Direction) (s : State) (x : CustomState), s.engine = .custom x →
    s.widths.c.toNat ≤ indexLimit s.cfg.histW → s.widths.k.toNat ≤ 32 → s.widths.t.toNat ≤ 32 →
      let ci := choiceIndex pc s.widths.c.toNat
      let base := ctrPredict (x.choice.read ci)
      let set := cacheIndex pc x.ghr s.widths.c.toNat s.widths.k.toNat
      ∃ y : CustomState, exec (.train pc o) s = .next (answered 0b0000#4 { s with engine := .custom y })
        ∧ y.ghr = shiftIn s.cfg.histW x.ghr o
        ∧ y.choice.read ci = ctrUpdate (x.choice.read ci) o
        ∧ (∀ j, j ≠ ci → y.choice.read j = x.choice.read j)
        ∧ (base = .taken → y.nc = x.nc) ∧ (base = .notTaken → y.tc = x.tc)
        ∧ ∀ n, ∀ j, j ≠ set →
            (y.cache n).way0.tag.read j = (x.cache n).way0.tag.read j
              ∧ (y.cache n).way1.tag.read j = (x.cache n).way1.tag.read j
              ∧ (y.cache n).way0.ctr.read j = (x.cache n).way0.ctr.read j
              ∧ (y.cache n).way1.ctr.read j = (x.cache n).way1.ctr.read j
              ∧ (y.cache n).lru.read j = (x.cache n).lru.read j

/-- R168: on a hit, whether or not the baseline was right, the hit way's counter steps with the outcome, the other way
becomes the least recently used, and no tag and no other counter of the set changes. -/
def Obligations.TrainHitUpdatesTheWay : Prop :=
  ∀ (pc : Pc) (o : Direction) (s t : State) (x y : CustomState),
    s.engine = .custom x → exec (.train pc o) s = .next t → t.engine = .custom y →
      let base := ctrPredict (x.choice.read (choiceIndex pc s.widths.c.toNat))
      let set := cacheIndex pc x.ghr s.widths.c.toNat s.widths.k.toNat
      let tg := tagOf pc s.widths.t.toNat
      let old := if base = .taken then x.tc else x.nc
      let new := if base = .taken then y.tc else y.nc
      (old.way0.tag.read set = tg →
          new.way0.ctr.read set = ctrUpdate (old.way0.ctr.read set) o ∧ new.lru.read set = 1#1
            ∧ new.way1 = old.way1 ∧ new.way0.tag = old.way0.tag)
        ∧ (old.way0.tag.read set ≠ tg → old.way1.tag.read set = tg →
            new.way1.ctr.read set = ctrUpdate (old.way1.ctr.read set) o ∧ new.lru.read set = 0#1
              ∧ new.way0 = old.way0 ∧ new.way1.tag = old.way1.tag)

/-- R169: on a miss with the baseline wrong, the least recently used way takes the tag and a counter `WT` for a taken
and `WN` for a not-taken outcome, whatever it held, the other way is unchanged, and the LRU bit flips. -/
def Obligations.TrainMissAllocates : Prop :=
  ∀ (pc : Pc) (o : Direction) (s t : State) (x y : CustomState),
    s.engine = .custom x → exec (.train pc o) s = .next t → t.engine = .custom y →
      let base := ctrPredict (x.choice.read (choiceIndex pc s.widths.c.toNat))
      let set := cacheIndex pc x.ghr s.widths.c.toNat s.widths.k.toNat
      let tg := tagOf pc s.widths.t.toNat
      let old := if base = .taken then x.tc else x.nc
      let new := if base = .taken then y.tc else y.nc
      let fresh : Counter := if o = .taken then 2#2 else 1#2
      old.way0.tag.read set ≠ tg → old.way1.tag.read set ≠ tg → base ≠ o →
        (old.lru.read set = 0#1 →
            new.way0.tag.read set = tg ∧ new.way0.ctr.read set = fresh ∧ new.lru.read set = 1#1
              ∧ new.way1 = old.way1)
          ∧ (old.lru.read set = 1#1 →
              new.way1.tag.read set = tg ∧ new.way1.ctr.read set = fresh ∧ new.lru.read set = 0#1
                ∧ new.way0 = old.way0)

/-- R170: on a miss with the baseline right, no cell of either cache changes; the choice cell and `GHR` are still
updated. -/
def Obligations.TrainMissWithoutAllocation : Prop :=
  ∀ (pc : Pc) (o : Direction) (s t : State) (x y : CustomState),
    s.engine = .custom x → exec (.train pc o) s = .next t → t.engine = .custom y →
      let ci := choiceIndex pc s.widths.c.toNat
      let base := ctrPredict (x.choice.read ci)
      let set := cacheIndex pc x.ghr s.widths.c.toNat s.widths.k.toNat
      let tg := tagOf pc s.widths.t.toNat
      let old := if base = .taken then x.tc else x.nc
      old.way0.tag.read set ≠ tg → old.way1.tag.read set ≠ tg → base = o →
        y.tc = x.tc ∧ y.nc = x.nc ∧ y.choice.read ci = ctrUpdate (x.choice.read ci) o
          ∧ y.ghr = shiftIn s.cfg.histW x.ghr o

/-- R197, the spec's own inference: no `TRAIN` changes `MODE`, `STRAT` or a width, in any strategy; the same is said of
the parameters and of the free-value counter, which are the model's own (assumptions 6 and 7). -/
def Obligations.TrainKeepsTheConfiguration : Prop :=
  ∀ (pc : Pc) (o : Direction) (s t : State), exec (.train pc o) s = .next t →
    t.mode = s.mode ∧ t.strat = s.strat ∧ t.widths = s.widths ∧ t.cfg = s.cfg ∧ t.freeCount = s.freeCount

/-! ### TEARDOWN and the mode machine (R199, R200, R202) -/

/-- R199: in `READY`, `TEARDOWN` answers `OK` and leaves `UNINIT` with no strategy state; in `UNINIT` it answers
`PROTOCOL_ERROR` and changes nothing. -/
def Obligations.TeardownReleases : Prop :=
  ∀ s : State,
    (s.mode = .ready →
        ∃ t, exec .teardown s = .next t ∧ t.mode = .uninit ∧ t.rsp = some 0b0000#4 ∧ t.diagRecords = []
          ∧ t.cmdReady = true ∧ t.cfg = s.cfg ∧ t.inputs = s.inputs)
      ∧ (s.mode = .uninit → exec .teardown s = .next (answered 0b1000#4 s))

/-- The table of R200: next mode and response for every command in each mode, `INIT` valid meaning legal widths and,
under Tournament, `L <= G` (R190); an illegal word keeps the mode. -/
def Obligations.ModeTransitionTable : Prop :=
  ∀ (p : Widths) (st : BitVec 3) (pc : Pc) (o : Direction) (s t : State),
    (∀ i ∈ [Instr.initStatic p, .initGshare p, .initTournament p, .initCustom p], exec i s = .next t →
        if widthsLegal s.cfg.maxBits p ∧ (i = .initTournament p → p.l.toNat ≤ p.g.toNat)
        then t.mode = .ready ∧ t.rsp = some 0b0000#4 else t.mode = .uninit ∧ t.rsp = some 0b0100#4)
      ∧ (4 ≤ st.toNat → exec (.initUnrecognised st p) s = .next t → t.mode = .uninit ∧ t.rsp = some 0b0100#4)
      ∧ (exec (.predict pc) s = .next t → t.mode = s.mode
          ∧ (s.mode = .ready → t.rsp = some 0b0000#4 ∨ t.rsp = some 0b0001#4)
          ∧ (s.mode = .uninit → t.rsp = some 0b1000#4))
      ∧ (exec (.train pc o) s = .next t → t.mode = s.mode
          ∧ (s.mode = .ready → t.rsp = some 0b0000#4) ∧ (s.mode = .uninit → t.rsp = some 0b1000#4))
      ∧ (exec .teardown s = .next t → t.mode = .uninit
          ∧ (s.mode = .ready → t.rsp = some 0b0000#4) ∧ (s.mode = .uninit → t.rsp = some 0b1000#4))
      ∧ ∀ w rest e, s.inputs = .command w :: rest → s.cmdReady = true → decode w = .error e → step s = .next t →
          t.mode = s.mode ∧ t.rsp = some 0b1100#4

/-- R202, the spec's own inference: whatever the host does, the engine emits only the response words of the six
rows of the table (`OK` and `OK N` are one word), one for an accepted command and none otherwise, and never a diagnostic record (R41): `diag` is always 0. -/
def Obligations.OnlyTheseResponseWords : Prop :=
  ∀ s t : State, step s = .next t →
    t.diagRecords = []
      ∧ (∀ r, t.rsp = some r → rspDiag r = false
          ∧ r ∈ [0b0000#4, 0b0001#4, 0b0100#4, 0b1000#4, 0b1100#4])
      ∧ (t.rsp ≠ none ↔ ∃ w rest, s.inputs = .command w :: rest ∧ s.cmdReady = true)

/-! ### Invariants, safety, and what cannot be observed -/

/-- The invariant holds at power-on. -/
def Obligations.PowerOnIsSound : Prop :=
  Sound State.reset

/-- Every step keeps the invariant: legal widths (R23), canonical arrays of the size `INIT` gave them (R26), `L <= G`
under Tournament (R33), `T`-bit tags (R35), and tag uniqueness (R43). -/
def Obligations.StepKeepsSound : Prop :=
  ∀ s t : State, Sound s → step s = .next t → Sound t

/-- From a sound state a step always answers a next state: every index is in range (R61) and the step function is total
(R189). -/
def Obligations.SoundStateNeverStops : Prop :=
  ∀ s : State, Sound s → ∃ t, step s = .next t

/-- Where a command stops, and nowhere else: a `PREDICT` or `TRAIN` in a state, which no run reaches, whose active
strategy reads a width above that of the `pc`, key or history register it is applied to (U1), or a Tournament state with `L > G` (R61). No command is ever refused. -/
def Obligations.StopsOnlyOnMeaninglessWidths : Prop :=
  ∀ (i : Instr) (s : State),
    (∀ r, exec i s ≠ .refused r)
      ∧ ((∃ f, exec i s = .fault f) ↔
          ((∃ pc, i = .predict pc) ∨ ∃ pc o, i = .train pc o)
            ∧ ((∃ x, s.engine = .gshare x ∧ indexLimit s.cfg.histW < s.widths.g.toNat)
              ∨ (∃ x, s.engine = .tournament x
                  ∧ (indexLimit s.cfg.histW < s.widths.g.toNat ∨ indexLimit s.cfg.histW < s.widths.l.toNat ∨ s.widths.g.toNat < s.widths.l.toNat))
              ∨ ∃ x, s.engine = .custom x
                  ∧ (indexLimit s.cfg.histW < s.widths.c.toNat ∨ 32 < s.widths.k.toNat ∨ 32 < s.widths.t.toNat)))

/-- The second half of R43, the spec's own inference: once the two ways of a set hold different tags no `TRAIN` makes
them equal, and an allocation makes them different. -/
def Obligations.TagsStayDistinct : Prop :=
  ∀ (pc : Pc) (o : Direction) (s t : State) (x y : CustomState),
    s.engine = .custom x → exec (.train pc o) s = .next t → t.engine = .custom y →
      (∀ n j, (x.cache n).way0.tag.read j ≠ (x.cache n).way1.tag.read j →
          (y.cache n).way0.tag.read j ≠ (y.cache n).way1.tag.read j)
        ∧ ∀ n j, ((y.cache n).way0.tag.read j ≠ (x.cache n).way0.tag.read j
              ∨ (y.cache n).way1.tag.read j ≠ (x.cache n).way1.tag.read j) →
            (y.cache n).way0.tag.read j ≠ (y.cache n).way1.tag.read j

/-- R172(a), the spec's own inference, under the spec's reset values: right after a legal `INIT.CUSTOM` a `pc` whose tag
is the reset tag 0 hits way 0 and is answered from its reset counter, `NotTaken`. -/
def Obligations.ResetTagHitsWayZero : Prop :=
  ∀ (p : Widths) (pc : Pc) (s t : State),
    s.cfg = Config.spec → widthsLegal s.cfg.maxBits p → exec (.initCustom p) s = .next t →
      pc.toNat % 2 ^ p.t.toNat = 0 →
        ∃ x, t.engine = .custom x
          ∧ cacheLookup x.nc (cacheIndex pc x.ghr p.c.toNat p.k.toNat) (tagOf pc p.t.toNat) = some 0#1
          ∧ exec (.predict pc) t = .next (answered 0b0000#4 t)

/-- What the registers hold while `UNINIT` cannot be observed (R51, spec/93 U12 and U13): two machines that differ only
there, and in the model's free-value counter (assumption 6), answer every sequence of commands and resets alike. -/
def Obligations.UninitRegistersAreUnobservable : Prop :=
  ∀ (n : Nat) (a b : State), Indistinguishable a b → observe n a = observe n b

/-- The step lemma behind it: a step of one of two machines that differ only in what `STRAT` and the widths hold while
`UNINIT` is matched by a step of the other, with the same response, and leaves two such machines (R51, spec/93 U12 and
U13; the model's free-value counter is not compared, assumption 6). -/
def Obligations.StepKeepsIndistinguishable : Prop :=
  ∀ a b a' : State, Indistinguishable a b → step a = .next a' →
    ∃ b', step b = .next b' ∧ b'.rsp = a'.rsp ∧ b'.diagRecords = a'.diagRecords ∧ Indistinguishable a' b'

/-- R198: nothing before a successful `INIT` can influence anything after it: from any two states of machines with the
same parameters and the same commands to come, the run after it answers the same, and after any number of steps the two
machines are still such that no command can tell them apart. -/
def Obligations.NothingSurvivesInit : Prop :=
  ∀ (i : Instr) (p : Widths) (n : Nat) (a b a' b' : State),
    i ∈ [Instr.initStatic p, .initGshare p, .initTournament p, .initCustom p] →
    a.cfg = b.cfg → a.inputs = b.inputs →
    exec i a = .next a' → exec i b = .next b' → a'.mode = .ready →
      a'.engine = b'.engine ∧ a'.widths = b'.widths ∧ observe n a' = observe n b'
        ∧ ∀ u, Host.Core.run Sys2Proof.core n a' = .next u →
            ∃ v, Host.Core.run Sys2Proof.core n b' = .next v ∧ Indistinguishable u v

/-- R29, the spec's own inference, with spec/93 U9: neither the history bits above the consuming index width nor `HIST_W`
itself, where it is sufficient, can be observed. -/
def Obligations.HighHistoryBitsAreUnobservable : Prop :=
  ∀ (n : Nat) (a b : State), HistoryEquivalent a b → observe n a = observe n b

/-- The step lemma behind it: a step of one of two machines that differ only in `HIST_W` and in history bits above the
consuming index width is matched by a step of the other, with the same response, and leaves two such machines (R29,
the spec's own inference; spec/93 U9). -/
def Obligations.StepKeepsHistoryEquivalent : Prop :=
  ∀ a b a' : State, HistoryEquivalent a b → step a = .next a' →
    ∃ b', step b = .next b' ∧ b'.rsp = a'.rsp ∧ b'.diagRecords = a'.diagRecords ∧ HistoryEquivalent a' b'

/-- R232: whatever the interleaving, each instance of a system ends where it would have ended alone. That a system is a
list of engines is the model's (assumption 16). -/
def Obligations.InstancesAreIndependent : Prop :=
  ∀ (order : List Nat) (engines engines' : List State), stepInstances order engines = .next engines' →
    engines'.length = engines.length
      ∧ ∀ (k : Nat) (s s' : State), engines[k]? = some s → engines'[k]? = some s' →
          Host.Core.run Sys2Proof.core (order.count k) s = .next s'

/-- Canonical arrays are extensional (the model's representation, assumption 10): equal `fill` and equal reads make equal
data. -/
def Obligations.CanonicalArraysAreExtensional : Prop :=
  ∀ (α : Type) (a b : Memory α), a.wf → b.wf → a.fill = b.fill → (∀ i, a.read i = b.read i) → a = b
end

