-- ==== Sys2Proof/Laws/Memory.lean ====
section
/-! SUPPORT. Sys2Proof/Laws/Memory.lean: reading, writing and creating arrays: what a read gives after a write, and that
every operation keeps the canonical form and the size. -/

namespace Sys2Proof.Laws

open Sys2Proof.Machine

variable {α : Type}

theorem readCells_dropCell_other (fill : α) (cells : List (Nat × α)) {i j : Nat} (h : j ≠ i) :
    readCells fill (dropCell cells i) j = readCells fill cells j := by
  induction cells with
  | nil => rfl
  | cons c rest ih =>
    obtain ⟨k, v⟩ := c
    by_cases hk : k = i
    · simp [dropCell, readCells, hk, ih, Ne.symm h]
    · simp [dropCell, readCells, hk, ih]

theorem readCells_dropCell_same (fill : α) (cells : List (Nat × α)) (i : Nat) :
    readCells fill (dropCell cells i) i = fill := by
  induction cells with
  | nil => rfl
  | cons c rest ih =>
    obtain ⟨k, v⟩ := c
    by_cases hk : k = i <;> simp [dropCell, readCells, hk, ih]

theorem readCells_putCell (fill v : α) (cells : List (Nat × α)) (i j : Nat)
    (h : readCells fill cells i = fill ∧ ∀ c ∈ cells, c.1 ≠ i) :
    readCells fill (putCell cells i v) j = if j = i then v else readCells fill cells j := by
  induction cells with
  | nil => simp [putCell, readCells, eq_comm]
  | cons c rest ih =>
    obtain ⟨k, u⟩ := c
    have hk : k ≠ i := h.2 (k, u) (by simp)
    have hrest : readCells fill rest i = fill := by simpa [readCells, hk] using h.1
    have ih' := ih ⟨hrest, fun c hc => h.2 c (by simp [hc])⟩
    by_cases hlt : i < k
    · by_cases hj : j = i
      · simp [putCell, hlt, readCells, hj]
      · simp [putCell, hlt, readCells, hj, Ne.symm hj]
    · by_cases hkj : k = j
      · subst hkj; simp [putCell, hlt, readCells, hk]
      · simp [putCell, hlt, readCells, hkj, ih']

theorem dropCell_absent (cells : List (Nat × α)) (i : Nat) : ∀ c ∈ dropCell cells i, c.1 ≠ i ∧ c ∈ cells := by
  induction cells with
  | nil => simp [dropCell]
  | cons c rest ih =>
    obtain ⟨k, v⟩ := c
    intro c hc
    by_cases hk : k = i
    · have := ih c (by simpa [dropCell, hk] using hc); exact ⟨this.1, by simp [this.2]⟩
    · simp only [dropCell, hk, if_false, List.mem_cons] at hc
      rcases hc with rfl | hc
      · exact ⟨hk, by simp⟩
      · exact ⟨(ih c hc).1, by simp [(ih c hc).2]⟩

theorem mem_putCell (cells : List (Nat × α)) (i : Nat) (v : α) :
    ∀ c ∈ putCell cells i v, c = (i, v) ∨ c ∈ cells := by
  induction cells with
  | nil => simp [putCell]
  | cons c rest ih =>
    obtain ⟨k, u⟩ := c
    intro c hc
    by_cases hlt : i < k
    · simpa [putCell, hlt] using hc
    · simp only [putCell, hlt, if_false, List.mem_cons] at hc
      rcases hc with rfl | hc
      · simp
      · rcases ih c hc with h | h <;> simp [h]

/-- What a read gives after a write (R14, R63): the written cell its new value, every other cell its old one. -/
theorem read_write [DecidableEq α] (m : Memory α) (i j : Nat) (v : α) :
    (m.write i v).read j = if j = i then v else m.read j := by
  unfold Memory.write Memory.read
  split
  · rename_i hv
    by_cases hj : j = i
    · simp [hj, readCells_dropCell_same, hv]
    · simp [hj, readCells_dropCell_other]
  · simp only
    rw [readCells_putCell _ _ _ _ _ ⟨readCells_dropCell_same _ _ _, fun c hc => (dropCell_absent _ _ c hc).1⟩]
    by_cases hj : j = i
    · simp [hj]
    · simp [hj, readCells_dropCell_other]

@[simp] theorem read_write_same [DecidableEq α] (m : Memory α) (i : Nat) (v : α) : (m.write i v).read i = v := by
  simp [read_write]

theorem read_write_other [DecidableEq α] (m : Memory α) {i j : Nat} (v : α) (h : j ≠ i) :
    (m.write i v).read j = m.read j := by
  simp [read_write, h]

@[simp] theorem write_fill [DecidableEq α] (m : Memory α) (i : Nat) (v : α) : (m.write i v).fill = m.fill := by
  unfold Memory.write; split <;> rfl

@[simp] theorem new_read (v : α) (i : Nat) : (Memory.new v).read i = v := rfl
@[simp] theorem new_fill (v : α) : (Memory.new v).fill = v := rfl
@[simp] theorem new_cells (v : α) : (Memory.new v).cells = [] := rfl

theorem new_wf (v : α) : (Memory.new v).wf := by simp [Memory.wf]

theorem new_within (v : α) (n : Nat) : (Memory.new v).within n := by simp [Memory.within]

theorem pairwise_dropCell (cells : List (Nat × α)) (i : Nat)
    (h : cells.Pairwise (fun a b => a.1 < b.1)) : (dropCell cells i).Pairwise (fun a b => a.1 < b.1) := by
  induction cells with
  | nil => simp [dropCell]
  | cons c rest ih =>
    obtain ⟨k, v⟩ := c
    rw [List.pairwise_cons] at h
    by_cases hk : k = i
    · simpa [dropCell, hk] using ih h.2
    · simp only [dropCell, hk, if_false, List.pairwise_cons]
      exact ⟨fun c hc => h.1 c (dropCell_absent _ _ c hc).2, ih h.2⟩

theorem pairwise_putCell (cells : List (Nat × α)) (i : Nat) (v : α)
    (h : cells.Pairwise (fun a b => a.1 < b.1)) (hi : ∀ c ∈ cells, c.1 ≠ i) :
    (putCell cells i v).Pairwise (fun a b => a.1 < b.1) := by
  induction cells with
  | nil => simp [putCell]
  | cons c rest ih =>
    obtain ⟨k, u⟩ := c
    have hcons := List.pairwise_cons.mp h
    have hk : k ≠ i := hi (k, u) (by simp)
    by_cases hlt : i < k
    · simp only [putCell, hlt, if_true]
      refine List.pairwise_cons.mpr ⟨?_, h⟩
      intro c hc
      rcases List.mem_cons.mp hc with rfl | hc
      · exact hlt
      · exact Nat.lt_trans hlt (hcons.1 c hc)
    · simp only [putCell, hlt, if_false]
      refine List.pairwise_cons.mpr ⟨?_, ih hcons.2 fun c hc => hi c (by simp [hc])⟩
      intro c hc
      rcases mem_putCell _ _ _ c hc with rfl | hc
      · have : k < i := by omega
        exact this
      · exact hcons.1 c hc

/-- A write keeps the canonical form. -/
theorem write_wf [DecidableEq α] (m : Memory α) (i : Nat) (v : α) (h : m.wf) : (m.write i v).wf := by
  unfold Memory.write
  split
  · exact ⟨pairwise_dropCell _ _ h.1, fun c hc => h.2 c (dropCell_absent _ _ c hc).2⟩
  · rename_i hv
    refine ⟨pairwise_putCell _ _ _ (pairwise_dropCell _ _ h.1) fun c hc => (dropCell_absent _ _ c hc).1, ?_⟩
    intro c hc
    rcases mem_putCell _ _ _ c hc with rfl | hc
    · exact hv
    · exact h.2 c (dropCell_absent _ _ c hc).2

/-- A write to a cell the array has keeps its size (R26). -/
theorem write_within [DecidableEq α] (m : Memory α) (i n : Nat) (v : α) (h : m.within n) (hi : i < 2 ^ n) :
    (m.write i v).within n := by
  unfold Memory.write
  split
  · exact fun c hc => h c (dropCell_absent _ _ c hc).2
  · intro c hc
    rcases mem_putCell _ _ _ c hc with rfl | hc
    · exact hi
    · exact h c (dropCell_absent _ _ c hc).2

end Sys2Proof.Laws
end

