-- ==== Sys2Proof/Laws/Operands.lean ====
section
/-! SUPPORT. Sys2Proof/Laws/Operands.lean: the small lemmas of the bit-field utilities, the derived indices and the
counter, so that later proofs need not unfold them. -/

namespace Sys2Proof.Laws

open Sys2Proof.Machine

theorem lowerBits_lt (v n : Nat) : lowerBits v n < 2 ^ n := Nat.mod_lt _ (Nat.two_pow_pos n)

theorem testBit_lowerBits (v n i : Nat) : (lowerBits v n).testBit i = (decide (i < n) && v.testBit i) :=
  Nat.testBit_mod_two_pow v n i

theorem shiftIn_lt (histW : Nat) (h : History) (o : Direction) : shiftIn histW h o < 2 ^ histW :=
  Nat.mod_lt _ (Nat.two_pow_pos histW)

/-- Bit 0 of a shifted history is the outcome, every other bit the one below it, and none is above the register
(R122). -/
theorem testBit_shiftIn (histW : Nat) (h : History) (o : Direction) (i : Nat) :
    (shiftIn histW h o).testBit i = (decide (i < histW) && if i = 0 then o == .taken else h.testBit (i - 1)) := by
  unfold shiftIn
  rw [Nat.testBit_mod_two_pow, Nat.testBit_or, Nat.testBit_shiftLeft]
  rcases i with _ | i <;> cases o <;> simp [Direction.bit, Nat.testBit_succ]

theorem tagBits_toNat (v : BitVec 32) (t : Nat) : (tagBits v t).toNat = v.toNat % 2 ^ t := by
  have h : v.toNat % 2 ^ t < 2 ^ 32 := Nat.lt_of_le_of_lt (Nat.mod_le _ _) v.isLt
  unfold tagBits lowerBits
  rw [BitVec.toNat_ofNat, Nat.mod_eq_of_lt h]

theorem tagBits_lt (v : BitVec 32) (t : Nat) : (tagBits v t).toNat < 2 ^ t := by
  rw [tagBits_toNat]; exact Nat.mod_lt _ (Nat.two_pow_pos t)

theorem gIndex_lt (pc : Pc) (ghr : History) (g : Nat) : gIndex pc ghr g < 2 ^ g :=
  Nat.xor_lt_two_pow (lowerBits_lt _ _) (lowerBits_lt _ _)

theorem pcSlot_lt (pc : Pc) (l : Nat) : pcSlot pc l < 2 ^ l := lowerBits_lt _ _

theorem localIndex_lt (m : Memory History) (pc : Pc) (l : Nat) : localIndex m pc l < 2 ^ l := lowerBits_lt _ _

theorem choiceIndex_lt (pc : Pc) (c : Nat) : choiceIndex pc c < 2 ^ c := lowerBits_lt _ _

theorem cacheIndex_lt (pc : Pc) (ghr : History) (c k : Nat) : cacheIndex pc ghr c k < 2 ^ k := lowerBits_lt _ _

/-- Every 2-bit value is a level, so the defect path of R114 is never taken (R41). -/
@[simp] theorem ctrRecognised_true (c : Counter) : ctrRecognised c = true := by
  revert c; decide

@[simp] theorem ctrDiag_nil (table : TableName) (i : Nat) (c : Counter) : ctrDiag table i c = [] := by
  simp [ctrDiag]

@[simp] theorem predictCell_dir (table : TableName) (m : Memory Counter) (i : Nat) :
    (predictCell table m i).dir = ctrPredict (m.read i) := rfl

@[simp] theorem predictCell_diag (table : TableName) (m : Memory Counter) (i : Nat) : (predictCell table m i).diag = [] := by
  simp [predictCell]

/-- When the index formulas of the active strategy have a meaning (`Engine.stop`): always in `UNINIT` and Static. -/
theorem stop_uninit (b : BitVec 2) (h : Nat) (p : Widths) : (Engine.uninit b).stop h p = none := rfl

theorem stop_static (h : Nat) (p : Widths) : Engine.static.stop h p = none := rfl

theorem stop_gshare (e : GshareState) (h : Nat) (p : Widths) :
    (Engine.gshare e).stop h p = none ↔ p.g.toNat ≤ indexLimit h := by
  simp [Engine.stop]

theorem stop_tournament (e : TournamentState) (h : Nat) (p : Widths) :
    (Engine.tournament e).stop h p = none ↔ p.g.toNat ≤ indexLimit h ∧ p.l.toNat ≤ p.g.toNat := by
  unfold Engine.stop
  split_ifs <;> simp <;> omega

theorem stop_custom (e : CustomState) (h : Nat) (p : Widths) :
    (Engine.custom e).stop h p = none ↔ p.c.toNat ≤ indexLimit h ∧ p.k.toNat ≤ 32 ∧ p.t.toNat ≤ 32 := by
  simp [Engine.stop]

end Sys2Proof.Laws
end

