-- ==== Sys2Proof/Laws/PerInstr.lean ====
section
/-! SUPPORT. Sys2Proof/Laws/PerInstr.lean: the per-instruction family `EncodedInRow`: the word of every well-formed
command selects that command's row of the opcode map (R87). -/

namespace Sys2Proof.Laws.EncodedInRow

/-- The encoding of `i` selects the row `i` stands in. -/
def Statement (i : Instr) : Prop :=
  WellFormed i = true → (opcodeRow i).selects (encode i)

/-- Of a format I word, the bits above `cmd[29]` hold the strategy code alone. -/
theorem encodeInit_masked (strat : BitVec 3) (p : Widths) :
    encodeInit strat p &&& 0x7C0000000#35 = placeField 30 strat := by
  apply BitVec.eq_of_getLsbD_eq
  intro i hi
  interval_cases i <;> simp [encodeInit, placeField]

theorem initStatic (p : Widths) : Statement (.initStatic p) := fun _ => encodeInit_masked _ p

theorem initGshare (p : Widths) : Statement (.initGshare p) := fun _ => encodeInit_masked _ p

theorem initTournament (p : Widths) : Statement (.initTournament p) := fun _ => encodeInit_masked _ p

theorem initCustom (p : Widths) : Statement (.initCustom p) := fun _ => encodeInit_masked _ p

/-- A code of 4 or more, in its place in the word, has the row's one fixed bit set. -/
theorem unrecognised_code (strat : BitVec 3) :
    4 ≤ strat.toNat → placeField 30 strat &&& 0x700000000#35 = 0x100000000#35 := by
  revert strat; decide

theorem initUnrecognised (strat : BitVec 3) (p : Widths) : Statement (.initUnrecognised strat p) := by
  intro h
  have hm : (0x700000000#35 : CmdWord) = 0x7C0000000#35 &&& 0x700000000#35 := by decide
  show encodeInit strat p &&& 0x700000000#35 = 0x100000000#35
  rw [hm, ← BitVec.and_assoc, encodeInit_masked]
  exact unrecognised_code strat (by simpa [WellFormed] using h)

/-- The field of `pc` sets no bit above `cmd[31]`. -/
theorem pc_masked (pc : Pc) : placeField 0 pc &&& 0x700000000#35 = 0#35 := by
  apply BitVec.eq_of_getLsbD_eq
  intro i hi
  interval_cases i <;> simp [placeField]

theorem or_and_distrib (a b m : CmdWord) : (a ||| b) &&& m = (a &&& m) ||| (b &&& m) := by
  apply BitVec.eq_of_getLsbD_eq
  intro i _
  simp [Bool.and_or_distrib_right]

theorem predict (pc : Pc) : Statement (.predict pc) := by
  intro _
  show (placeField 33 1#2 ||| placeField 0 pc) &&& 0x700000000#35 = 0x200000000#35
  rw [or_and_distrib, pc_masked]
  decide

theorem train (pc : Pc) (o : Direction) : Statement (.train pc o) := by
  intro _
  have hm : (0x600000000#35 : CmdWord) = 0x700000000#35 &&& 0x600000000#35 := by decide
  show (placeField 33 2#2 ||| placeField 32 o.bit ||| placeField 0 pc) &&& 0x600000000#35 = 0x400000000#35
  rw [or_and_distrib, hm, ← BitVec.and_assoc (placeField 0 pc), pc_masked]
  cases o <;> decide

theorem teardown : Statement .teardown := by
  intro _; decide

end Sys2Proof.Laws.EncodedInRow
end

