-- ==== Sys2Proof/Laws/State.lean ====
section
/-! SUPPORT. Sys2Proof/Laws/State.lean: one lemma per field of the state per update, so that no later proof unfolds a
record update. -/

namespace Sys2Proof.Laws

open Sys2Proof.Machine

variable (st : Status) (diag : List DiagRecord) (pred : Direction) (s : State) (rest : List HostInput) (w : CmdWord)

/-! ### respond -/

@[simp] theorem respond_cfg : (respond st diag pred s).cfg = s.cfg := rfl
@[simp] theorem respond_engine : (respond st diag pred s).engine = s.engine := rfl
@[simp] theorem respond_widths : (respond st diag pred s).widths = s.widths := rfl
@[simp] theorem respond_inputs : (respond st diag pred s).inputs = s.inputs := rfl
@[simp] theorem respond_cmdReady : (respond st diag pred s).cmdReady = true := rfl
@[simp] theorem respond_rsp : (respond st diag pred s).rsp = some (rspWord st (!diag.isEmpty) pred) := rfl
@[simp] theorem respond_diagRecords : (respond st diag pred s).diagRecords = diag := rfl
@[simp] theorem respond_freeCount : (respond st diag pred s).freeCount = s.freeCount := rfl

/-! ### release -/

@[simp] theorem release_cfg : (release s).cfg = s.cfg := rfl
@[simp] theorem release_engine : (release s).engine = .uninit (Config.unspecifiedStrat s.freeCount) := rfl
@[simp] theorem release_g : (release s).widths.g = Config.unspecifiedWidth 0 s.freeCount := rfl
@[simp] theorem release_l : (release s).widths.l = Config.unspecifiedWidth 1 s.freeCount := rfl
@[simp] theorem release_c : (release s).widths.c = Config.unspecifiedWidth 2 s.freeCount := rfl
@[simp] theorem release_k : (release s).widths.k = Config.unspecifiedWidth 3 s.freeCount := rfl
@[simp] theorem release_t : (release s).widths.t = Config.unspecifiedWidth 4 s.freeCount := rfl
@[simp] theorem release_inputs : (release s).inputs = s.inputs := rfl
@[simp] theorem release_cmdReady : (release s).cmdReady = s.cmdReady := rfl
@[simp] theorem release_rsp : (release s).rsp = s.rsp := rfl
@[simp] theorem release_diagRecords : (release s).diagRecords = s.diagRecords := rfl
@[simp] theorem release_freeCount : (release s).freeCount = s.freeCount + 1 := rfl

/-! ### hardwareReset -/

@[simp] theorem hardwareReset_cfg : (hardwareReset s).cfg = s.cfg := rfl
@[simp] theorem hardwareReset_engine : (hardwareReset s).engine = (release s).engine := rfl
@[simp] theorem hardwareReset_widths : (hardwareReset s).widths = (release s).widths := rfl
@[simp] theorem hardwareReset_inputs : (hardwareReset s).inputs = s.inputs := rfl
@[simp] theorem hardwareReset_cmdReady : (hardwareReset s).cmdReady = true := rfl
@[simp] theorem hardwareReset_rsp : (hardwareReset s).rsp = none := rfl
@[simp] theorem hardwareReset_diagRecords : (hardwareReset s).diagRecords = [] := rfl
@[simp] theorem hardwareReset_freeCount : (hardwareReset s).freeCount = s.freeCount + 1 := rfl

/-! ### idle -/

@[simp] theorem idle_cfg : (idle s).cfg = s.cfg := rfl
@[simp] theorem idle_engine : (idle s).engine = s.engine := rfl
@[simp] theorem idle_widths : (idle s).widths = s.widths := rfl
@[simp] theorem idle_inputs : (idle s).inputs = s.inputs := rfl
@[simp] theorem idle_cmdReady : (idle s).cmdReady = true := rfl
@[simp] theorem idle_rsp : (idle s).rsp = none := rfl
@[simp] theorem idle_diagRecords : (idle s).diagRecords = [] := rfl
@[simp] theorem idle_freeCount : (idle s).freeCount = s.freeCount := rfl

/-! ### accept -/

@[simp] theorem accept_cfg : (accept rest s).cfg = s.cfg := rfl
@[simp] theorem accept_engine : (accept rest s).engine = s.engine := rfl
@[simp] theorem accept_widths : (accept rest s).widths = s.widths := rfl
@[simp] theorem accept_inputs : (accept rest s).inputs = rest := rfl
@[simp] theorem accept_cmdReady : (accept rest s).cmdReady = false := rfl
@[simp] theorem accept_rsp : (accept rest s).rsp = none := rfl
@[simp] theorem accept_diagRecords : (accept rest s).diagRecords = [] := rfl
@[simp] theorem accept_freeCount : (accept rest s).freeCount = s.freeCount := rfl

/-! ### present -/

@[simp] theorem present_cfg : (present w s).cfg = s.cfg := rfl
@[simp] theorem present_engine : (present w s).engine = s.engine := rfl
@[simp] theorem present_widths : (present w s).widths = s.widths := rfl
@[simp] theorem present_inputs : (present w s).inputs = .command w :: s.inputs := rfl
@[simp] theorem present_cmdReady : (present w s).cmdReady = true := rfl
@[simp] theorem present_rsp : (present w s).rsp = s.rsp := rfl
@[simp] theorem present_diagRecords : (present w s).diagRecords = s.diagRecords := rfl
@[simp] theorem present_freeCount : (present w s).freeCount = s.freeCount := rfl

/-! ### raise -/

@[simp] theorem raise_configurationError :
    raise .configurationError s = respond .configError [] .notTaken (release s) := rfl
@[simp] theorem raise_protocolError :
    raise .protocolError s = respond .protocolError [] .notTaken s := rfl
@[simp] theorem raise_illegalCommand :
    raise .illegalCommand s = respond .illegalCommand [] .notTaken s := rfl

/-! ### the strategy state records -/

variable (e : CustomState) (c c' : Cache) (x : Way)

@[simp] theorem cache_tc : e.cache .tc = e.tc := rfl
@[simp] theorem cache_nc : e.cache .nc = e.nc := rfl
@[simp] theorem setCache_ghr (n : CacheName) : (e.setCache n c).ghr = e.ghr := by cases n <;> rfl
@[simp] theorem setCache_choice (n : CacheName) : (e.setCache n c).choice = e.choice := by cases n <;> rfl
@[simp] theorem setCache_same (n : CacheName) : (e.setCache n c).cache n = c := by cases n <;> rfl
@[simp] theorem setCache_tc_tc : (e.setCache .tc c).tc = c := rfl
@[simp] theorem setCache_tc_nc : (e.setCache .tc c).nc = e.nc := rfl
@[simp] theorem setCache_nc_tc : (e.setCache .nc c).tc = e.tc := rfl
@[simp] theorem setCache_nc_nc : (e.setCache .nc c).nc = c := rfl
@[simp] theorem way_zero : c.way 0#1 = c.way0 := rfl
@[simp] theorem way_one : c.way 1#1 = c.way1 := rfl
@[simp] theorem setWay_lru (v : WayNo) : (c.setWay v x).lru = c.lru := by unfold Cache.setWay; split <;> rfl
@[simp] theorem setWay_zero : c.setWay 0#1 x = { c with way0 := x } := rfl
@[simp] theorem setWay_one : c.setWay 1#1 x = { c with way1 := x } := rfl

end Sys2Proof.Laws
end

