-- ==== Sys2Proof/Laws/Step.lean ====
section
/-! SUPPORT. Sys2Proof/Laws/Step.lean: for each shared operation and each meaning, one lemma that says once everything
it can do; the provers cite these instead of unfolding it. -/

namespace Sys2Proof.Laws

open Sys2Proof.Machine

/-- Everything `fetch` can find (R80, R81). -/
theorem fetch_cases (s : State) :
    (s.inputs = [] ∧ fetch s = .idle (idle s))
      ∨ (∃ f rest, s.inputs = .hardwareReset f :: rest ∧ fetch s = .reset { s with inputs := rest })
      ∨ (∃ w rest, s.inputs = .command w :: rest ∧ s.cmdReady = true ∧ fetch s = .word w (accept rest s))
      ∨ (∃ w rest, s.inputs = .command w :: rest ∧ s.cmdReady = false ∧ fetch s = .idle (idle s)) := by
  unfold fetch
  split
  · rename_i h; exact .inl ⟨h, rfl⟩
  · rename_i f rest h; exact .inr (.inl ⟨f, rest, h, rfl⟩)
  · rename_i w rest h
    cases hr : s.cmdReady
    · exact .inr (.inr (.inr ⟨w, rest, h, rfl, rfl⟩))
    · exact .inr (.inr (.inl ⟨w, rest, h, rfl, rfl⟩))

/-- Everything a step that answers a next state can have done. -/
theorem step_cases {s t : State} (h : step s = .next t) :
    (t = idle s ∧ (s.inputs = [] ∨ s.cmdReady = false))
      ∨ (∃ f rest, s.inputs = .hardwareReset f :: rest ∧ t = hardwareReset { s with inputs := rest })
      ∨ (∃ w rest i, s.inputs = .command w :: rest ∧ s.cmdReady = true ∧ decode w = .ok i
          ∧ exec i (accept rest s) = .next t)
      ∨ (∃ w rest e, s.inputs = .command w :: rest ∧ s.cmdReady = true ∧ decode w = .error e
          ∧ t = raise .illegalCommand (accept rest s)) := by
  unfold step at h
  rcases fetch_cases s with ⟨hi, hf⟩ | ⟨f, rest, hi, hf⟩ | ⟨w, rest, hi, hr, hf⟩ | ⟨w, rest, hi, hr, hf⟩
  · rw [hf] at h; cases h; exact .inl ⟨rfl, .inl hi⟩
  · rw [hf] at h; cases h; exact .inr (.inl ⟨f, rest, hi, rfl⟩)
  · rw [hf] at h
    cases hd : decode w with
    | ok i => simp only [hd] at h; exact .inr (.inr (.inl ⟨w, rest, i, hi, hr, hd, h⟩))
    | error e => simp only [hd] at h; cases h; exact .inr (.inr (.inr ⟨w, rest, e, hi, hr, hd, rfl⟩))
  · rw [hf] at h; cases h; exact .inl ⟨rfl, .inr hr⟩

/-- Everything `initialise` can do (R190). -/
theorem initialise_cases (cross : Bool) (e : Engine) (p : Widths) (s : State) :
    (widthsLegal s.cfg.maxBits p ∧ (cross = true → p.l.toNat ≤ p.g.toNat)
        ∧ initialise cross e p s = respond .ok [] .notTaken { s with engine := e, widths := p })
      ∨ (¬ (widthsLegal s.cfg.maxBits p ∧ (cross = true → p.l.toNat ≤ p.g.toNat))
          ∧ initialise cross e p s = raise .configurationError s) := by
  unfold initialise
  split
  · rename_i hl
    split
    · rename_i hc; exact .inr ⟨fun h => absurd (h.2 hc.1) (by omega), rfl⟩
    · rename_i hc; exact .inl ⟨hl, fun hx => by by_contra hn; exact hc ⟨hx, by omega⟩, rfl⟩
  · rename_i hl; exact .inr ⟨fun h => hl h.1, rfl⟩

/-- An `INIT` whose checks pass (R190). -/
theorem initialise_valid {cross : Bool} (e : Engine) {p : Widths} {s : State} (h : widthsLegal s.cfg.maxBits p)
    (hc : cross = true → p.l.toNat ≤ p.g.toNat) :
    initialise cross e p s = respond .ok [] .notTaken { s with engine := e, widths := p } := by
  rcases initialise_cases cross e p s with ⟨_, _, hi⟩ | ⟨hn, _⟩
  · exact hi
  · exact absurd ⟨h, hc⟩ hn

/-- An `INIT` one of whose checks fails (R190, R212). -/
theorem initialise_invalid {cross : Bool} (e : Engine) {p : Widths} {s : State}
    (h : ¬ (widthsLegal s.cfg.maxBits p ∧ (cross = true → p.l.toNat ≤ p.g.toNat))) :
    initialise cross e p s = raise .configurationError s := by
  rcases initialise_cases cross e p s with ⟨h1, h2, _⟩ | ⟨_, hi⟩
  · exact absurd ⟨h1, h2⟩ h
  · exact hi

/-- Everything a `PREDICT` that answers a next state can have done (R194). -/
theorem execPredict_cases {pc : Pc} {s t : State} (h : execPredict pc s = .next t) :
    (s.engine.stop s.cfg.histW s.widths = none ∧ s.engine.predict s.widths pc = none ∧ t = raise .protocolError s)
      ∨ ∃ pr, s.engine.stop s.cfg.histW s.widths = none ∧ s.engine.predict s.widths pc = some pr
          ∧ t = respond .ok pr.diag pr.dir s := by
  unfold execPredict at h
  cases hs : s.engine.stop s.cfg.histW s.widths with
  | some f => simp [hs] at h
  | none =>
    simp only [hs] at h
    cases hp : s.engine.predict s.widths pc with
    | none => simp only [hp] at h; cases h; exact .inl ⟨rfl, rfl, rfl⟩
    | some pr => simp only [hp] at h; cases h; exact .inr ⟨pr, rfl, rfl, rfl⟩

/-- Everything a `TRAIN` that answers a next state can have done (R196). -/
theorem execTrain_cases {pc : Pc} {o : Direction} {s t : State} (h : execTrain pc o s = .next t) :
    (s.engine.stop s.cfg.histW s.widths = none ∧ s.engine.train s.cfg.histW s.widths pc o = none ∧ t = raise .protocolError s)
      ∨ ∃ e diag, s.engine.stop s.cfg.histW s.widths = none ∧ s.engine.train s.cfg.histW s.widths pc o = some (e, diag)
          ∧ t = respond .ok diag .notTaken { s with engine := e } := by
  unfold execTrain at h
  cases hs : s.engine.stop s.cfg.histW s.widths with
  | some f => simp [hs] at h
  | none =>
    simp only [hs] at h
    cases hp : s.engine.train s.cfg.histW s.widths pc o with
    | none => simp only [hp] at h; cases h; exact .inl ⟨rfl, rfl, rfl⟩
    | some x => obtain ⟨e, diag⟩ := x; simp only [hp] at h; cases h; exact .inr ⟨e, diag, rfl, rfl, rfl⟩

/-- Everything a `TEARDOWN` can do (R199). -/
theorem execTeardown_cases (s : State) :
    (s.mode = .uninit ∧ execTeardown s = .next (raise .protocolError s))
      ∨ (s.mode = .ready ∧ execTeardown s = .next (respond .ok [] .notTaken (release s))) := by
  unfold execTeardown
  cases s.mode
  · exact .inl ⟨rfl, rfl⟩
  · exact .inr ⟨rfl, rfl⟩

/-- Everything `cacheLookup` can find (R164). -/
theorem cacheLookup_cases (c : Cache) (set : Nat) (tg : Tag) :
    (c.way0.tag.read set = tg ∧ cacheLookup c set tg = some 0#1)
      ∨ (c.way0.tag.read set ≠ tg ∧ c.way1.tag.read set = tg ∧ cacheLookup c set tg = some 1#1)
      ∨ (c.way0.tag.read set ≠ tg ∧ c.way1.tag.read set ≠ tg ∧ cacheLookup c set tg = none) := by
  unfold cacheLookup
  split
  · rename_i h; exact .inl ⟨h, rfl⟩
  · rename_i h0
    split
    · rename_i h1; exact .inr (.inl ⟨h0, h1, rfl⟩)
    · rename_i h1; exact .inr (.inr ⟨h0, h1, rfl⟩)

/-- Everything a cache action of `TRAIN` can do (R167, R171). -/
theorem cacheTrain_cases (c : Cache) (set : Nat) (tg : Tag) (base o : Direction) :
    (∃ w, cacheLookup c set tg = some w ∧ cacheTrain c set tg base o = hitUpdate c set w o)
      ∨ (cacheLookup c set tg = none ∧ base ≠ o ∧ cacheTrain c set tg base o = allocate c set tg o)
      ∨ (cacheLookup c set tg = none ∧ base = o ∧ cacheTrain c set tg base o = c) := by
  unfold cacheTrain
  cases cacheLookup c set tg with
  | some w => exact .inl ⟨w, rfl, rfl⟩
  | none =>
    by_cases hb : base = o
    · exact .inr (.inr ⟨rfl, hb, by simp [hb]⟩)
    · exact .inr (.inl ⟨rfl, hb, by simp [hb]⟩)

end Sys2Proof.Laws
end

