-- ==== Sys2Proof/Tests/Slice0.lean ====
section
/-! SUPPORT. Sys2Proof/Tests/Slice0.lean: named tests. Expected values are from spec/95_test_vectors.md (V<n>), from the
worked examples of the rules cited, or worked out by hand from a rule's formula. The last part shows a concrete state
and operands for the hypotheses of each statement that has any. -/

namespace Sys2Proof.Tests

open Sys2Proof.Machine Sys2Proof.Safety

/-! ### Well-formedness: the one check refuses an ill-formed term -/

theorem test_wellFormed_refuses_recognised_code :
    WellFormed (.initUnrecognised 3#3 ⟨1, 1, 1, 1, 1⟩) = false := by decide

theorem test_wellFormed_takes_code_four : WellFormed (.initUnrecognised 4#3 ⟨0, 0, 0, 0, 0⟩) = true := by decide

/-! ### Decoding: words written out bit by bit from the fields of R83 and R84, and V27 to V38 -/

theorem test_decode_initStatic_bits :
    decode 0b00_000_001110_001010_001101_001010_000110#35 = .ok (.initStatic ⟨14, 10, 13, 10, 6⟩) := by decide

theorem test_decode_initGshare_bits :
    decode 0b00_001_000001_000010_000011_000100_100000#35 = .ok (.initGshare ⟨1, 2, 3, 4, 32⟩) := by decide

theorem test_decode_initTournament_bits :
    decode 0b00_010_001110_001010_001101_001010_000110#35 = .ok (.initTournament ⟨14, 10, 13, 10, 6⟩) := by decide

theorem test_decode_initCustom_bits :
    decode 0b00_011_001110_001010_000010_000001_000100#35 = .ok (.initCustom ⟨14, 10, 2, 1, 4⟩) := by decide

theorem test_decode_initUnrecognised_bits :
    decode 0b00_101_001110_001010_001101_001010_000110#35 = .ok (.initUnrecognised 5#3 ⟨14, 10, 13, 10, 6⟩) := by
  decide

theorem test_decode_predict_bits :
    decode 0b01_0_11011110101011011011111011101111#35 = .ok (.predict 0xDEADBEEF#32) := by decide

theorem test_decode_train_bits :
    decode 0b10_1_11011110101011011011111011101111#35 = .ok (.train 0xDEADBEEF#32 .taken) := by decide

theorem test_decode_train_notTaken : decode 0x4DEADBEEF#35 = .ok (.train 0xDEADBEEF#32 .notTaken) := by decide

theorem test_decode_teardown_bits : decode 0b11_000000000000000000000000000000000#35 = .ok .teardown := by decide

/-- V35. -/
theorem test_decode_predict_reserved : decode 0x3FFFFFFFF#35 = .error .predictOutcomeBit := by decide

/-- V36. -/
theorem test_decode_teardown_reserved : decode 0x7FFFFFFFF#35 = .error .teardownReservedBits := by decide

/-- V37. -/
theorem test_decode_all_ones_init :
    decode 0x1FFFFFFFF#35 = .ok (.initUnrecognised 7#3 ⟨63, 63, 63, 63, 63⟩) := by decide

/-- V30, V31, V34. -/
theorem test_encode_vectors :
    encode (.initCustom ⟨14, 10, 13, 10, 6⟩) = 0x0CE28D286#35
      ∧ encode (.initGshare ⟨32, 32, 32, 32, 32⟩) = 0x060820820#35
      ∧ encode (.train 0xFFFFFFFF#32 .taken) = 0x5FFFFFFFF#35 ∧ encode .teardown = 0x600000000#35 := by decide

theorem test_decodeTableWord_row : decodeTableWord 40 0x2DEADBEEF = some (.predict 0xDEADBEEF#32) := by decide

theorem test_decodeTableWord_bit_above_word : decodeTableWord 40 0x800000000 = none := by decide

/-- R96, R97. -/
theorem test_assemble_branch :
    assemble [.initDefault 1, .branch 0xDEADBEEF .taken]
      = some [0x04E28D286#35, 0x2DEADBEEF#35, 0x5DEADBEEF#35] := by decide

/-- R95: the `pc` of a line is at most `0xFFFFFFFF`. -/
theorem test_assemble_refuses_wide_pc : assemble [.predict (2 ^ 32)] = none := by decide

/-! ### Bit-field utilities and counter: V16 to V26 -/

/-- V20, V22. -/
theorem test_lowerBits :
    lowerBits 0xDEADBEEF 13 = 0x1EEF ∧ lowerBits 0xDEADBEEF 31 = 0x5EADBEEF
      ∧ lowerBits 0xFFFFFFFF 32 = 0xFFFFFFFF := by decide

/-- V24, V25. -/
theorem test_shiftIn :
    shiftIn 32 0x2AAA .taken = 0x5555 ∧ shiftIn 32 0x80000001 .notTaken = 2
      ∧ shiftIn 32 0x7FFFFFFF .taken = 0xFFFFFFFF := by decide

/-- A `HIST_W` of 4: bit 3 is discarded (R122's rule, at another width). -/
theorem test_shiftIn_narrow : shiftIn 4 0b1101 .taken = 0b1011 := by decide

/-- V39. -/
theorem test_gIndex :
    gIndex 0xDEADBEEF#32 0x2AAA 14 = 0x1445 ∧ gIndex 0x12345678#32 0x0F0F0F0F 32 = 0x1D3B5977 := by decide

/-- V57. -/
theorem test_cacheIndex :
    cacheIndex 0xDEADBEEF#32 0x2AAA 13 10 = 0x045 ∧ tagOf 0xDEADBEEF#32 6 = 0x2F#32 := by decide

/-- V16, V17, V18. -/
theorem test_ctrUpdate_ends :
    ctrUpdate (ctrUpdate 3#2 .taken) .notTaken = WT ∧ ctrUpdate (ctrUpdate SN .notTaken) .taken = WN := by decide

/-! ### One step of each command on a small state -/

/-- `READY` under Gshare with `G = 2` in the state V1 ends in. -/
def gshareX : GshareState := { ghr := 7, table := { fill := WN, cells := [(0, WT), (1, WT), (3, WT)] } }

/-- `READY` under Tournament with `G = L = 2` in the end state of R150. -/
def tournamentX : TournamentState where
  ghr := 15
  globalTable := { fill := WN, cells := [(0, WT), (1, WT), (3, 3#2)] }
  localTable := { fill := WN, cells := [(0, WT), (1, WT), (3, 3#2)] }
  localHist := { fill := 0, cells := [(0, 15)] }
  choice := { fill := WN, cells := [] }

/-- A cache of the small examples of R160 to R174 with nothing written. -/
def emptyCache : Cache := cacheInit Config.spec 4

/-- `NC` as V41 leaves it: set 0 is `w0=(4,WT) w1=(9,WT) lru=0`. -/
def fullCache : Cache where
  way0 := { tag := { fill := 0#32, cells := [(0, 4#32)] }, ctr := { fill := WN, cells := [(0, WT)] } }
  way1 := { tag := { fill := 0#32, cells := [(0, 9#32)] }, ctr := { fill := WN, cells := [(0, WT)] } }
  lru := { fill := 0#1, cells := [] }

/-- `READY` under Custom with `C = 2`, `K = 1`, `T = 4` in the state V41 leaves. -/
def customX : CustomState where
  ghr := 3
  choice := { fill := WN, cells := [(0, WT), (1, WT)] }
  tc := emptyCache
  nc := fullCache

/-- The state of R174 after row 2. -/
def customAfterRow2 : CustomState where
  ghr := 2
  choice := { fill := WN, cells := [] }
  tc :=
    { way0 := { tag := { fill := 0#32, cells := [(1, 4#32)] }, ctr := { fill := WN, cells := [] } }
      way1 := emptyCache.way1
      lru := { fill := 0#1, cells := [(1, 1#1)] } }
  nc :=
    { way0 := { tag := { fill := 0#32, cells := [(0, 4#32)] }, ctr := { fill := WN, cells := [(0, WT)] } }
      way1 := emptyCache.way1
      lru := { fill := 0#1, cells := [(0, 1#1)] } }

/-- The machine with that engine, the widths of the small examples, and one word presented. -/
def machine (e : Engine) (w : CmdWord) : State :=
  present w { State.reset with engine := e, widths := ⟨2, 2, 2, 1, 4⟩ }

/-- What a test looks at after a step: the engine and the response. -/
def outcome (s : State) : Option (Engine × Option RspWord) :=
  match step s with
  | .next t => some (t.engine, t.rsp)
  | .fault _ => none
  | .refused _ => none

/-- The mode and the response after a step. -/
def modeAfter (s : State) : Option (Mode × Option RspWord) :=
  match step s with
  | .next t => some (t.mode, t.rsp)
  | .fault _ => none
  | .refused _ => none

/-- P5 row 8; V69: a width Static does not use is checked. -/
theorem test_init_static :
    outcome (machine (.uninit 2#2) 0x00E28D286#35) = some (.static, some 0b0000#4)
      ∧ modeAfter (machine .static 0x00028D286#35) = some (.uninit, some 0b0100#4) := by decide

/-- V1's first command: `INIT GSHARE, 2, 10, 13, 10, 6` (and V72: `L > G` is allowed outside Tournament). -/
theorem test_init_gshare :
    outcome (machine (.uninit 3#2) 0x04228D286#35)
      = some (.gshare { ghr := 0, table := Memory.new WN }, some 0b0000#4) := by decide

/-- V67, V68: `g = 33`; a width Gshare does not use is checked. -/
theorem test_init_gshare_fails :
    modeAfter (machine .static 0x06128D286#35) = some (.uninit, some 0b0100#4)
      ∧ modeAfter (machine .static 0x04E28D2BF#35) = some (.uninit, some 0b0100#4) := by decide

/-- V71, V70: under Tournament `L = G` is allowed and `L > G` is not. -/
theorem test_init_tournament :
    modeAfter (machine .static 0x08A28D286#35) = some (.ready, some 0b0000#4)
      ∧ modeAfter (machine .static 0x08928D286#35) = some (.uninit, some 0b0100#4) := by decide

/-- R165's worked example, the word of P3. -/
theorem test_init_custom :
    outcome (machine .static 0x0CE282044#35)
      = some (.custom { ghr := 0, choice := Memory.new WN, tc := emptyCache, nc := emptyCache }, some 0b0000#4) := by
  decide

/-- V65. -/
theorem test_init_unrecognised : modeAfter (machine .static 0x100000000#35) = some (.uninit, some 0b0100#4) := by
  decide

/-- V73; V39c: `PREDICT 3` reads cell 0. -/
theorem test_predict_static_gshare :
    outcome (machine .static 0x2DEADBEEF#35) = some (.static, some 0b0001#4)
      ∧ outcome (machine (.gshare gshareX) 0x200000003#35) = some (.gshare gshareX, some 0b0001#4) := by decide

/-- R145's worked example: `PREDICT 1` answers the global prediction; V51: the hit in `NC` overrides the baseline. -/
theorem test_predict_tournament_custom :
    outcome (machine (.tournament tournamentX) 0x200000001#35) = some (.tournament tournamentX, some 0b0000#4)
      ∧ outcome (machine (.custom customAfterRow2) 0x200000004#35)
          = some (.custom customAfterRow2, some 0b0001#4) := by decide

/-- V74; V39d: the index of `TRAIN 1, N` is taken from the history before it; V44 and V45: the sub-predictions disagree
and local, then global, was right. -/
theorem test_train_static_gshare_tournament :
    outcome (machine .static 0x4DEADBEEF#35) = some (.static, some 0b0000#4)
      ∧ outcome (machine (.gshare gshareX) 0x400000001#35)
          = some (.gshare { ghr := 14, table := { fill := WN, cells := [(0, WT), (1, WT), (2, SN), (3, WT)] } },
              some 0b0000#4)
      ∧ outcome (machine (.tournament tournamentX) 0x500000001#35)
          = some (.tournament
              { ghr := 31
                globalTable := { fill := WN, cells := [(0, WT), (1, WT), (2, WT), (3, 3#2)] }
                localTable := { fill := WN, cells := [(0, 3#2), (1, WT), (3, 3#2)] }
                localHist := { fill := 0, cells := [(0, 15), (1, 1)] }
                choice := { fill := WN, cells := [(1, WT)] } }, some 0b0000#4)
      ∧ outcome (machine (.tournament tournamentX) 0x400000001#35)
          = some (.tournament
              { ghr := 30
                globalTable := { fill := WN, cells := [(0, WT), (1, WT), (2, SN), (3, 3#2)] }
                localTable := { fill := WN, cells := [(1, WT), (3, 3#2)] }
                localHist := { fill := 0, cells := [(0, 15)] }
                choice := { fill := WN, cells := [(1, SN)] } }, some 0b0000#4) := by decide

/-- V42: a miss in a full set evicts way 0; V52: a hit steps the way's counter and leaves the LRU bit at 1. -/
theorem test_train_custom :
    outcome (machine (.custom customX) 0x50000000F#35)
        = some (.custom
            { ghr := 7
              choice := { fill := WN, cells := [(0, WT), (1, WT), (3, WT)] }
              tc := emptyCache
              nc :=
                { way0 := { tag := { fill := 0#32, cells := [(0, 15#32)] }, ctr := { fill := WN, cells := [(0, WT)] } }
                  way1 := fullCache.way1
                  lru := { fill := 0#1, cells := [(0, 1#1)] } } }, some 0b0000#4)
      ∧ outcome (machine (.custom customAfterRow2) 0x500000004#35)
          = some (.custom
              { ghr := 5
                choice := { fill := WN, cells := [(0, WT)] }
                tc := customAfterRow2.tc
                nc :=
                  { way0 :=
                      { tag := { fill := 0#32, cells := [(0, 4#32)] }, ctr := { fill := WN, cells := [(0, 3#2)] } }
                    way1 := emptyCache.way1
                    lru := { fill := 0#1, cells := [(0, 1#1)] } } }, some 0b0000#4) := by decide

/-- V75. -/
theorem test_teardown_ready : modeAfter (machine (.gshare gshareX) 0x600000000#35) = some (.uninit, some 0b0000#4) := by
  decide

/-- V60, V61, V62. -/
theorem test_uninit_protocol_error :
    outcome (machine (.uninit 1#2) 0x200000000#35) = some (.uninit 1#2, some 0b1000#4)
      ∧ outcome (machine (.uninit 1#2) 0x500000000#35) = some (.uninit 1#2, some 0b1000#4)
      ∧ outcome (machine (.uninit 1#2) 0x600000000#35) = some (.uninit 1#2, some 0b1000#4) := by decide

/-- V63, V64: the illegal word wins over the protocol error, and changes nothing. -/
theorem test_illegal_word :
    outcome (machine (.uninit 1#2) 0x300000000#35) = some (.uninit 1#2, some 0b1100#4)
      ∧ outcome (machine (.gshare gshareX) 0x600000001#35) = some (.gshare gshareX, some 0b1100#4) := by decide

/-- R240: hardware reset with a command in flight. -/
theorem test_hardware_reset :
    modeAfter { machine (.gshare gshareX) 0 with inputs := [.hardwareReset (some 0x600000000#35)] }
      = some (.uninit, none) := by decide

/-- The first word after power-on is accepted and run (V28). -/
theorem test_withFetchWord_runs : modeAfter (State.reset.withFetchWord 40 0x04E28D286) = some (.ready, some 0b0000#4) := by
  decide

/-! ### Storage totals (R47) -/

/-- R47: the tables of the observed defaults. -/
theorem test_storage_defaults :
    storageBits 32 .gshare ⟨14, 10, 13, 10, 6⟩ = 32768 + 32
      ∧ (arraySpaces 32 .tournament ⟨14, 10, 13, 10, 6⟩).map ArraySpace.usedBits = [32768, 2048, 10240, 2048]
      ∧ spacesBits (cacheSpaces .nc ⟨14, 10, 13, 10, 6⟩) = 17408 := by decide

/-! ### The reset memory and the invariant -/

/-- Reset holds no array; the arrays an `INIT` creates are canonical. -/
theorem test_new_arrays_canonical : (Memory.new WN).wf ∧ (Memory.new 0#32).wf ∧ (Memory.new 0#1).wf := by decide

/-! ### Witnesses: the hypotheses of the statements are met -/

/-- The machine of the tests before a command is presented. -/
def ready (e : Engine) : State := { State.reset with engine := e, widths := ⟨2, 2, 2, 1, 4⟩ }

/-- IllegalWordsAreAnswered, StepRunsTheDecodedCommand: a word presented to a ready channel. -/
theorem witness_presented_word :
    (machine .static 0x300000000#35).inputs = .command 0x300000000#35 :: []
      ∧ (machine .static 0x300000000#35).cmdReady = true
      ∧ 0x300000000#35 &&& 0x700000000#35 = 0x300000000#35
      ∧ (0x600000001#35 &&& 0x600000000#35 = 0x600000000#35 ∧ 0x600000001#35 ≠ 0x600000000#35)
      ∧ decode 0x2FFFFFFFF#35 = .ok (.predict 0xFFFFFFFF#32) := by decide

/-- QuietStepHoldsTheState. -/
theorem witness_quiet : State.reset.inputs = [] := rfl

/-- HardwareResetLeavesUninit. -/
theorem witness_hardware_reset :
    ({ State.reset with inputs := [.hardwareReset (some 0#35)] } : State).inputs = .hardwareReset (some 0#35) :: [] := rfl

/-- StaticStrategy, InitGshareResult, InitCustomResult, InitTournamentResult: the smallest and the largest legal widths;
`L = G`; a reset tag that fits. -/
theorem witness_legal_widths :
    widthsLegal State.reset.cfg.maxBits ⟨1, 1, 1, 1, 1⟩ ∧ widthsLegal State.reset.cfg.maxBits ⟨32, 32, 32, 32, 32⟩
      ∧ (32#6 : WidthReg).toNat ≤ (32#6 : WidthReg).toNat ∧ State.reset.cfg.rstYTag.toNat < 2 ^ (1#6 : WidthReg).toNat := by
  decide

/-- StaticStrategy and OutOfRangeWidthsFail: widths just outside the range at both ends, and `L` just above `G`. -/
theorem witness_illegal_widths :
    ¬ widthsLegal State.reset.cfg.maxBits ⟨33, 1, 1, 1, 1⟩
      ∧ (∃ v ∈ [33#6, 1#6, 1#6, 1#6, 1#6], v.toNat = 0 ∨ State.reset.cfg.maxBits < v.toNat)
      ∧ (∃ v ∈ [1#6, 1#6, 1#6, 1#6, 0#6], v.toNat = 0 ∨ State.reset.cfg.maxBits < v.toNat)
      ∧ (9#6 : WidthReg).toNat < (10#6 : WidthReg).toNat := by decide

/-- UnrecognisedStrategyFails: the least and the greatest unrecognised code. -/
theorem witness_unrecognised_codes : 4 ≤ (4#3 : BitVec 3).toNat ∧ 4 ≤ (7#3 : BitVec 3).toNat := by decide

/-- ReinitialisationIsTeardownThenInit. -/
theorem witness_reinit :
    ∃ t u v, Instr.initGshare ⟨2, 2, 2, 1, 4⟩ ∈ [Instr.initStatic ⟨2, 2, 2, 1, 4⟩, .initGshare ⟨2, 2, 2, 1, 4⟩,
        .initTournament ⟨2, 2, 2, 1, 4⟩, .initCustom ⟨2, 2, 2, 1, 4⟩, .initUnrecognised 4#3 ⟨2, 2, 2, 1, 4⟩]
      ∧ (ready (.gshare gshareX)).mode = .ready
      ∧ exec (.initGshare ⟨2, 2, 2, 1, 4⟩) (ready (.gshare gshareX)) = .next t
      ∧ exec .teardown (ready (.gshare gshareX)) = .next u
      ∧ exec (.initGshare ⟨2, 2, 2, 1, 4⟩) u = .next v ∧ t.mode = .ready :=
  ⟨_, _, _, by decide, rfl, rfl, rfl, rfl, rfl⟩

/-- PredictUnderGshare, TrainUnderGshare: a width of 2, and 32 is admitted too; a second `pc` with equal low bits. -/
theorem witness_gshare :
    (ready (.gshare gshareX)).engine = .gshare gshareX ∧ (ready (.gshare gshareX)).widths.g.toNat ≤ indexLimit (ready (.gshare gshareX)).cfg.histW
      ∧ (32#6 : WidthReg).toNat ≤ indexLimit State.reset.cfg.histW
      ∧ lowerBits (7#32 : Pc).toNat 2 = lowerBits (3#32 : Pc).toNat 2 := by decide

/-- PredictUnderTournament, TrainUnderTournament: `pc = 1` disagrees, `pc = 0` agrees (R150, R151). -/
theorem witness_tournament :
    (ready (.tournament tournamentX)).engine = .tournament tournamentX
      ∧ (ready (.tournament tournamentX)).widths.g.toNat ≤ indexLimit (ready (.tournament tournamentX)).cfg.histW
      ∧ (ready (.tournament tournamentX)).widths.l.toNat ≤ (ready (.tournament tournamentX)).widths.g.toNat
      ∧ ctrPredict (tournamentX.globalTable.read (gIndex 1#32 15 2)) = .notTaken
      ∧ ctrPredict (tournamentX.localTable.read (localIndex tournamentX.localHist 1#32 2)) = .taken
      ∧ ctrPredict (tournamentX.globalTable.read (gIndex 0#32 15 2)) = .taken
      ∧ ctrPredict (tournamentX.localTable.read (localIndex tournamentX.localHist 0#32 2)) = .taken := by decide

/-- PredictUnderCustom, TrainUnderCustom: `pc = 14` (set 0 of the `NC` of `fullCache`) misses, and the tags of way 0 and
of way 1 can be met. -/
theorem witness_custom :
    (ready (.custom customX)).engine = .custom customX
      ∧ (ready (.custom customX)).widths.c.toNat ≤ indexLimit (ready (.custom customX)).cfg.histW
      ∧ (ready (.custom customX)).widths.k.toNat ≤ 32
      ∧ (ready (.custom customX)).widths.t.toNat ≤ 32
      ∧ cacheLookup customX.nc 0 (tagOf 0x24#32 4) = some 0#1 ∧ cacheLookup customX.nc 0 (tagOf 9#32 4) = some 1#1
      ∧ cacheLookup customX.nc 0 (tagOf 15#32 4) = none := by decide

/-- A Custom state in which `pc = 9` has baseline `N` and hits way 1 of `NC` set 0 (V41's cache under history 1). -/
def customHit1 : CustomState := { customX with ghr := 1, choice := { fill := WN, cells := [] } }

/-- The trained engine, where the training answers a next state under Custom. -/
def trainedCustom (pc : Pc) (o : Direction) (x : CustomState) : Option CustomState :=
  match exec (.train pc o) (ready (.custom x)) with
  | .next t =>
    match t.engine with
    | .custom y => some y
    | .uninit _ => none
    | .static => none
    | .gshare _ => none
    | .tournament _ => none
  | .fault _ => none
  | .refused _ => none

/-- TrainHitUpdatesTheWay: the way 0 clause (R174 row 4) and the way 1 clause. -/
theorem witness_train_hits :
    trainedCustom 4#32 .taken customAfterRow2 = some (customTrain 32 ⟨2, 2, 2, 1, 4⟩ 4#32 .taken customAfterRow2)
      ∧ ctrPredict (customAfterRow2.choice.read (choiceIndex 4#32 2)) = .notTaken
      ∧ customAfterRow2.nc.way0.tag.read (cacheIndex 4#32 2 2 1) = tagOf 4#32 4
      ∧ trainedCustom 9#32 .taken customHit1 = some (customTrain 32 ⟨2, 2, 2, 1, 4⟩ 9#32 .taken customHit1)
      ∧ ctrPredict (customHit1.choice.read (choiceIndex 9#32 2)) = .notTaken
      ∧ customHit1.nc.way0.tag.read (cacheIndex 9#32 1 2 1) ≠ tagOf 9#32 4
      ∧ customHit1.nc.way1.tag.read (cacheIndex 9#32 1 2 1) = tagOf 9#32 4 := by decide

/-- The set of V41 with the LRU bit at 1: the next victim is way 1. -/
def customVictim1 : CustomState := { customX with nc := { fullCache with lru := { fill := 0#1, cells := [(0, 1#1)] } } }

/-- TrainMissAllocates: the way 0 victim (V42) and the way 1 victim; TrainMissWithoutAllocation: the same `pc` with the
baseline right. -/
theorem witness_train_misses :
    trainedCustom 15#32 .taken customX = some (customTrain 32 ⟨2, 2, 2, 1, 4⟩ 15#32 .taken customX)
      ∧ trainedCustom 15#32 .taken customVictim1 = some (customTrain 32 ⟨2, 2, 2, 1, 4⟩ 15#32 .taken customVictim1)
      ∧ trainedCustom 15#32 .notTaken customX = some (customTrain 32 ⟨2, 2, 2, 1, 4⟩ 15#32 .notTaken customX)
      ∧ ctrPredict (customX.choice.read (choiceIndex 15#32 2)) = .notTaken
      ∧ customX.nc.way0.tag.read (cacheIndex 15#32 3 2 1) ≠ tagOf 15#32 4
      ∧ customX.nc.way1.tag.read (cacheIndex 15#32 3 2 1) ≠ tagOf 15#32 4
      ∧ customX.nc.lru.read (cacheIndex 15#32 3 2 1) = 0#1
      ∧ customVictim1.nc.lru.read (cacheIndex 15#32 3 2 1) = 1#1 := by decide

/-- TagsStayDistinct: the two ways of `NC` set 0 differ, and V42 changes a tag there. -/
theorem witness_tags :
    (customX.cache .nc).way0.tag.read 0 ≠ (customX.cache .nc).way1.tag.read 0
      ∧ ((customTrain 32 ⟨2, 2, 2, 1, 4⟩ 15#32 .taken customX).cache .nc).way0.tag.read 0
          ≠ (customX.cache .nc).way0.tag.read 0 := by decide

/-- PredictIsPure, ModeTransitionTable, TrainKeepsTheConfiguration: a `PREDICT`, another, and a `TRAIN` that answer. -/
theorem witness_answers :
    ∃ t u v, exec (.predict 3#32) (ready (.gshare gshareX)) = .next t ∧ exec (.predict 2#32) t = .next u
      ∧ exec (.train 1#32 .notTaken) (ready (.gshare gshareX)) = .next v :=
  ⟨_, _, _, rfl, rfl, rfl⟩

/-- LowerBitsMasksTheValue, LowerBitsLaws, ShiftInLowBitsLemma, ConstantOutcomeSettlesTheIndex, DerivedIndexFormulas,
HistoryHoldsTheOutcomes, CounterMonotoneAndSaturating, PseudoCommandsExpand: the widths 0 and 32 at the ends of their
range, a history longer than its outcomes, three updates, the greatest `pc` and strategy code. -/
theorem witness_operand_ranges :
    0 ≤ 32 ∧ 32 ≤ 32 ∧ [Direction.taken, .notTaken].length ≤ 2 ∧ 3 ≤ 3 ∧ SN ≤ Machine.ST ∧ 0xFFFFFFFF < 2 ^ 32 ∧ 7 < 8 := by
  decide

/-- DecodeOfEncode, EncodeOfDecode: a well-formed command with every operand at its greatest value, and its word. -/
theorem witness_round_trip :
    WellFormed (.initUnrecognised 7#3 ⟨63, 63, 63, 63, 63⟩) = true
      ∧ decode 0x1FFFFFFFF#35 = .ok (.initUnrecognised 7#3 ⟨63, 63, 63, 63, 63⟩) := by decide

/-- ModeTransitionTable: an `INIT` of each kind, a `TEARDOWN` and an illegal word that answer. -/
theorem witness_mode_table :
    ∃ t u v w, exec (.initTournament ⟨2, 2, 2, 1, 4⟩) (ready (.gshare gshareX)) = .next t
      ∧ exec (.initUnrecognised 4#3 ⟨2, 2, 2, 1, 4⟩) (ready (.gshare gshareX)) = .next u
      ∧ exec .teardown (ready (.gshare gshareX)) = .next v
      ∧ decode 0x300000000#35 = .error .predictOutcomeBit
      ∧ step (machine (.gshare gshareX) 0x300000000#35) = .next w :=
  ⟨_, _, _, _, rfl, rfl, rfl, rfl, rfl⟩

/-- UninitIsProtocolError, TeardownReleases: both modes occur. -/
theorem witness_modes : State.reset.mode = .uninit ∧ (ready .static).mode = .ready := by decide

/-- ResetTagHitsWayZero: V54's `pc`. -/
theorem witness_reset_tag :
    ∃ t, State.reset.cfg = Config.spec ∧ widthsLegal State.reset.cfg.maxBits ⟨14, 10, 2, 1, 4⟩
      ∧ exec (.initCustom ⟨14, 10, 2, 1, 4⟩) State.reset = .next t
      ∧ (0x10#32 : Pc).toNat % 2 ^ (4#6 : WidthReg).toNat = 0 :=
  ⟨_, by decide, by decide, rfl, by decide⟩

/-- StopsOnlyOnMeaninglessWidths: each stop has a state, at the least width that stops. -/
theorem witness_stops :
    exec (.predict 0#32) { ready (.gshare gshareX) with widths := ⟨33, 2, 2, 1, 4⟩ } = .fault .widthOutOfRange
      ∧ exec (.train 0#32 .taken) { ready (.tournament tournamentX) with widths := ⟨2, 3, 2, 1, 4⟩ }
          = .fault .choiceIndexOutOfRange
      ∧ exec (.predict 0#32) { ready (.custom customX) with widths := ⟨2, 2, 2, 1, 33⟩ } = .fault .widthOutOfRange
      ∧ exec (.predict 0#32) { ready (.gshare gshareX) with cfg := { Config.spec with histW := 1 } }
          = .fault .widthOutOfRange :=
  ⟨rfl, rfl, rfl, rfl⟩

/-- Every tag array of the small examples is canonical, of `2^1` cells, with 4-bit tags. -/
theorem sound_gshareX : EngineSound Config.spec ⟨2, 2, 2, 1, 4⟩ (.gshare gshareX) :=
  ⟨by decide, by decide, ⟨by decide, by decide⟩⟩

/-- StepKeepsSound, SoundStateNeverStops, OnlyTheseResponseWords: a sound machine with a command presented, and its
step. -/
theorem witness_sound_step :
    ∃ t, Sound (machine (.gshare gshareX) 0x400000001#35) ∧ step (machine (.gshare gshareX) 0x400000001#35) = .next t :=
  ⟨_, ⟨by decide, rfl, sound_gshareX⟩, rfl⟩

/-- UninitRegistersAreUnobservable: two different machines no command can tell apart. -/
theorem witness_indistinguishable :
    Indistinguishable State.reset { State.reset with engine := .uninit 3#2, widths := ⟨2, 2, 2, 1, 4⟩, freeCount := 7 } :=
  ⟨rfl, rfl, rfl, .inl ⟨rfl, rfl⟩⟩

/-- NothingSurvivesInit: the same `INIT` from power-on and from a trained Gshare machine (V76). -/
theorem witness_nothing_survives :
    ∃ a' b', State.reset.cfg = (ready (.gshare gshareX)).cfg ∧ State.reset.inputs = (ready (.gshare gshareX)).inputs
      ∧ exec (.initGshare ⟨2, 10, 13, 10, 6⟩) State.reset = .next a'
      ∧ exec (.initGshare ⟨2, 10, 13, 10, 6⟩) (ready (.gshare gshareX)) = .next b' ∧ a'.mode = .ready :=
  ⟨_, _, rfl, rfl, rfl, rfl, rfl⟩

/-- The machine of the tests with a `HIST_W` of 40. -/
def wide (e : Engine) : State := { ready e with cfg := { Config.spec with histW := 40 } }

/-- HighHistoryBitsAreUnobservable, StepKeepsHistoryEquivalent under Gshare: `GHR = 7` of 32 bits and a 40-bit `GHR`
that agrees in the low 2. -/
theorem witness_history_gshare :
    HistoryEquivalent (ready (.gshare gshareX)) (wide (.gshare { gshareX with ghr := 0xFFFFFFFFFF })) :=
  ⟨rfl, by decide, by decide, fun _ => by decide, rfl, rfl, rfl, rfl, rfl, rfl⟩

/-- The same under Tournament: `GHR` 15 and 19 agree in the low 2 bits, local histories 15 and 7 too. -/
theorem witness_history_tournament :
    HistoryEquivalent (ready (.tournament tournamentX))
      (wide (.tournament { tournamentX with ghr := 19, localHist := { fill := 0, cells := [(0, 7)] } })) :=
  ⟨rfl, by decide, by decide, fun _ => by decide, rfl, rfl, rfl, rfl, rfl, rfl, rfl, rfl, fun i => by
    cases i <;> rfl⟩

/-- The same under Custom: `GHR` 3 and `0x8000000003` agree in the low 2 bits. -/
theorem witness_history_custom :
    HistoryEquivalent (ready (.custom customX)) (wide (.custom { customX with ghr := 0x8000000003 })) :=
  ⟨rfl, by decide, by decide, fun _ => by decide, rfl, rfl, rfl, rfl, rfl, rfl, rfl, rfl⟩

/-- StepKeepsIndistinguishable, StepKeepsHistoryEquivalent: such machines step, with a command presented. -/
theorem witness_step_pairs :
    ∃ a b, step (present 0x500000001#35 (ready (.tournament tournamentX))) = .next a
      ∧ step (present 0x600000000#35 State.reset) = .next b := ⟨_, _, rfl, rfl⟩

/-- IndicesStayInsideTheirArrays: the least and the greatest widths, and `K > C`. -/
theorem witness_indices :
    Config.spec.wf ∧ widthsLegal 32 ⟨1, 1, 1, 1, 1⟩ ∧ widthsLegal 32 ⟨32, 32, 32, 32, 32⟩
      ∧ widthsLegal 32 ⟨2, 2, 2, 3, 4⟩ := by decide

/-- InstancesAreIndependent: two instances, the second stepped, then the first. -/
theorem witness_instances :
    ∃ engines', stepInstances [1, 0] [State.reset, machine .static 0x200000000#35] = .next engines' :=
  ⟨_, rfl⟩

/-- CanonicalArraysAreExtensional: a canonical array with a listed cell. -/
theorem witness_canonical : gshareX.table.wf ∧ gshareX.table.fill = WN := by decide

end Sys2Proof.Tests
end

/-! The encoding (spec/30_encoding.md): the masks and matches of the opcode map as conditions on the fields of a word,
what `decode` gives for each value of those fields, and the settled statements O14 and O16. -/

namespace Sys2Proof.Proofs.Encoding

open Sys2Proof.Machine

/-! ### A mask of leading ones reads a field -/

theorem getElem_placeField {n : Nat} (lo i : Nat) (v : BitVec n) (hi : i < 35) :
    (placeField lo v)[i] = (decide (lo ≤ i) && v.getLsbD (i - lo)) := by
  by_cases hlo : i < lo
  · simp [placeField, hlo]
  · simp [placeField, hlo, Nat.le_of_not_lt hlo]

/-- Comparing a word under the mask of its top `n` bits compares the field those bits form. -/
theorem and_topMask_eq_iff {n lo : Nat} (hn : lo + n = 35) (w : CmdWord) (v : BitVec n) :
    w &&& placeField lo (BitVec.allOnes n) = placeField lo v ↔ w.extractLsb' lo n = v := by
  constructor
  · intro h
    ext i hi
    have hbit := congrArg (BitVec.getLsbD · (lo + i)) h
    have hlt : lo + i < 35 := by omega
    simpa [getElem_placeField, hi, hlt] using hbit
  · rintro rfl
    ext i hi
    by_cases hlo : lo ≤ i
    · have hlt : i - lo < n := by omega
      simp [getElem_placeField, hi, hlo, hlt]
    · simp [getElem_placeField, hlo]

/-- A field made of two adjacent fields is compared by comparing the two. -/
theorem extractLsb'_eq_append_iff {m n : Nat} (lo : Nat) (w : CmdWord) (u : BitVec m) (v : BitVec n) :
    w.extractLsb' lo (m + n) = u ++ v ↔ w.extractLsb' (lo + n) m = u ∧ w.extractLsb' lo n = v := by
  constructor
  · intro h
    have hbit (i : Nat) := congrArg (BitVec.getLsbD · i) h
    constructor
    · ext i hi
      have hlt : n + i < m + n := by omega
      simpa [BitVec.getElem_append, hi, hlt, Nat.add_assoc] using hbit (n + i)
    · ext i hi
      have hlt : i < m + n := by omega
      simpa [BitVec.getElem_append, hi, hlt] using hbit i
  · rintro ⟨rfl, rfl⟩
    exact (BitVec.extractLsb'_append_extractLsb'_eq_extractLsb' rfl).symm

/-! ### The masks of R87 -/

/-- The two-bit mask covers the major opcode `cmd[34:33]`. -/
theorem majorMask_iff (w : CmdWord) (op : BitVec 2) :
    w &&& 0x600000000#35 = placeField 33 op ↔ w.extractLsb' 33 2 = op :=
  and_topMask_eq_iff (lo := 33) rfl w op

/-- The three-bit mask adds `cmd[32]`. -/
theorem outcomeMask_iff (w : CmdWord) (op : BitVec 2) (o : BitVec 1) :
    w &&& 0x700000000#35 = placeField 32 (op ++ o) ↔ w.extractLsb' 33 2 = op ∧ w.extractLsb' 32 1 = o :=
  (and_topMask_eq_iff (lo := 32) rfl w (op ++ o)).trans (extractLsb'_eq_append_iff 32 w op o)

/-- The five-bit mask adds the strategy code `cmd[32:30]`. -/
theorem strategyMask_iff (w : CmdWord) (op : BitVec 2) (strat : BitVec 3) :
    w &&& 0x7C0000000#35 = placeField 30 (op ++ strat)
      ↔ w.extractLsb' 33 2 = op ∧ w.extractLsb' 30 3 = strat :=
  (and_topMask_eq_iff (lo := 30) rfl w (op ++ strat)).trans (extractLsb'_eq_append_iff 30 w op strat)

/-- `TEARDOWN` fixes the whole word: the major opcode and all 33 bits below it. -/
theorem eq_teardownWord_iff (w : CmdWord) :
    w = 0x600000000#35 ↔ w.extractLsb' 33 2 = 3#2 ∧ w.extractLsb' 0 33 = 0#33 := by
  have hsplit := extractLsb'_eq_append_iff 0 w 3#2 0#33
  rwa [BitVec.extractLsb'_eq_self] at hsplit

/-- `cmd[32]` is also the top bit of the strategy code. -/
theorem outcomeBit_eq_strategyTop (w : CmdWord) :
    w.extractLsb' 32 1 = (w.extractLsb' 30 3).extractLsb' 2 1 := by
  ext i hi
  obtain rfl : i = 0 := by omega
  simp

/-! ### What `decode` gives -/

/-- The `INIT` command of a recognised strategy (R85). -/
def initOf (st : Strategy) (p : Widths) : Instr :=
  match st with
  | .static => .initStatic p
  | .gshare => .initGshare p
  | .tournament => .initTournament p
  | .custom => .initCustom p

theorem decodeInit_eq_initOf_iff (strat : BitVec 3) (p : Widths) (st : Strategy) :
    (∃ q, decodeInit strat p = initOf st q) ↔ strat = st.code := by
  unfold decodeInit
  split_ifs
  all_goals cases st <;> simp_all [initOf, Strategy.code]

/-- The codes that name no strategy are 4 to 7, those with the top bit set (R85). -/
theorem strategyTop_iff (strat : BitVec 3) :
    strat.extractLsb' 2 1 = 1#1 ↔ ∀ st : Strategy, strat ≠ st.code := by
  have htop : ∀ code : BitVec 3, code.extractLsb' 2 1 = 1#1
      ↔ code ≠ 0#3 ∧ code ≠ 1#3 ∧ code ≠ 2#3 ∧ code ≠ 3#3 := by decide
  rw [htop]
  constructor
  · rintro ⟨h0, h1, h2, h3⟩ st
    cases st <;> assumption
  · intro h
    exact ⟨h .static, h .gshare, h .tournament, h .custom⟩

theorem decodeInit_eq_unrecognised_iff (strat : BitVec 3) (p : Widths) :
    (∃ st q, decodeInit strat p = .initUnrecognised st q) ↔ strat.extractLsb' 2 1 = 1#1 := by
  rw [strategyTop_iff]
  unfold decodeInit
  split_ifs with h0 h1 h2 h3
  · simpa using ⟨_, h0⟩
  · simpa using ⟨_, h1⟩
  · simpa using ⟨_, h2⟩
  · simpa using ⟨_, h3⟩
  · simpa using fun st => by cases st <;> assumption

/-- An `INIT` word is never read as another command. -/
theorem decodeInit_ne_other (strat : BitVec 3) (p : Widths) :
    (∀ pc, decodeInit strat p ≠ .predict pc) ∧ (∀ pc o, decodeInit strat p ≠ .train pc o)
      ∧ decodeInit strat p ≠ .teardown := by
  unfold decodeInit
  split_ifs <;> simp

/-- All that `decode` can give, with the fields of the word that make it so (R93). -/
theorem decode_cases (w : CmdWord) :
    (w.extractLsb' 33 2 = 0#2 ∧ decode w = .ok (decodeInit (w.extractLsb' 30 3) (decodeWidths w)))
      ∨ (w.extractLsb' 33 2 = 1#2 ∧ w.extractLsb' 32 1 = 1#1 ∧ decode w = .error .predictOutcomeBit)
      ∨ (w.extractLsb' 33 2 = 1#2 ∧ w.extractLsb' 32 1 = 0#1 ∧ decode w = .ok (.predict (w.extractLsb' 0 32)))
      ∨ (w.extractLsb' 33 2 = 2#2
          ∧ decode w = .ok (.train (w.extractLsb' 0 32) (Direction.ofBit (w.extractLsb' 32 1))))
      ∨ (w.extractLsb' 33 2 = 3#2 ∧ w.extractLsb' 0 33 = 0#33 ∧ decode w = .ok .teardown)
      ∨ (w.extractLsb' 33 2 = 3#2 ∧ w.extractLsb' 0 33 ≠ 0#33
          ∧ decode w = .error .teardownReservedBits) := by
  have hmajor : ∀ op : BitVec 2, op = 0#2 ∨ op = 1#2 ∨ op = 2#2 ∨ op = 3#2 := by decide
  have hbit : ∀ o : BitVec 1, o = 1#1 ∨ o = 0#1 := by decide
  rcases hmajor (w.extractLsb' 33 2) with h | h | h | h
  · simp [decode, h]
  · rcases hbit (w.extractLsb' 32 1) with ho | ho <;> simp [decode, h, ho]
  · simp [decode, h]
  · by_cases hz : w.extractLsb' 0 33 = 0#33 <;> simp [decode, h, hz]

/-! ### Each row of the opcode map, and each illegal class, by its mask and match -/

theorem selects_init_iff (w : CmdWord) (st : Strategy) :
    w &&& 0x7C0000000#35 = placeField 30 (0#2 ++ st.code) ↔ ∃ p, decode w = .ok (initOf st p) := by
  rw [strategyMask_iff]
  rcases decode_cases w with h | h | h | h | h | h
  · simp [h, decodeInit_eq_initOf_iff]
  all_goals cases st <;> simp [h, initOf]

theorem selects_initUnrecognised_iff (w : CmdWord) :
    w &&& 0x700000000#35 = 0x100000000#35 ↔ ∃ st p, decode w = .ok (.initUnrecognised st p) := by
  refine (outcomeMask_iff w 0#2 1#1).trans ?_
  rcases decode_cases w with h | h | h | h | h | h
  · simp [h, decodeInit_eq_unrecognised_iff, outcomeBit_eq_strategyTop]
  all_goals simp [h]

theorem selects_predict_iff (w : CmdWord) :
    w &&& 0x700000000#35 = 0x200000000#35 ↔ ∃ pc, decode w = .ok (.predict pc) := by
  refine (outcomeMask_iff w 1#2 0#1).trans ?_
  rcases decode_cases w with h | h | h | h | h | h <;> simp [h, decodeInit_ne_other]

theorem selects_train_iff (w : CmdWord) :
    w &&& 0x600000000#35 = 0x400000000#35 ↔ ∃ pc o, decode w = .ok (.train pc o) := by
  refine (majorMask_iff w 2#2).trans ?_
  rcases decode_cases w with h | h | h | h | h | h <;> simp [h, decodeInit_ne_other]

theorem selects_teardown_iff (w : CmdWord) :
    w &&& 0x7FFFFFFFF#35 = 0x600000000#35 ↔ decode w = .ok .teardown := by
  have hmask : (0x7FFFFFFFF#35 : CmdWord) = BitVec.allOnes 35 := by decide
  rw [hmask, BitVec.and_allOnes, eq_teardownWord_iff]
  rcases decode_cases w with h | h | h | h | h | h <;> simp [h, decodeInit_ne_other]

theorem selects_predictOutcomeBit_iff (w : CmdWord) :
    w &&& 0x700000000#35 = 0x300000000#35 ↔ decode w = .error .predictOutcomeBit := by
  refine (outcomeMask_iff w 1#2 1#1).trans ?_
  rcases decode_cases w with h | h | h | h | h | h <;> simp [h]

theorem selects_teardownReservedBits_iff (w : CmdWord) :
    w &&& 0x600000000#35 = 0x600000000#35 ∧ w ≠ 0x600000000#35
      ↔ decode w = .error .teardownReservedBits := by
  have hmajor : w &&& 0x600000000#35 = 0x600000000#35 ↔ w.extractLsb' 33 2 = 3#2 := majorMask_iff w 3#2
  rw [hmajor, ne_eq, eq_teardownWord_iff]
  rcases decode_cases w with h | h | h | h | h | h <;> simp [h]

/-- Settles O14, row by row: each mask reads the fields that `decode` branches on. -/
theorem opcodeMapDecides : Obligations.OpcodeMapDecides := fun w =>
  ⟨selects_init_iff w .static, selects_init_iff w .gshare, selects_init_iff w .tournament,
    selects_init_iff w .custom, selects_initUnrecognised_iff w, selects_predict_iff w, selects_train_iff w,
    selects_teardown_iff w, selects_predictOutcomeBit_iff w, selects_teardownReservedBits_iff w⟩

/-! ### The assembler -/

/-- A line assembles to the words of its expansion, when each expanded line is a command (R95). -/
theorem assemble_single (a : AsmLine) : assemble [a] = wordsOf (AsmLine.expand a) := by
  simp [assemble]

/-- An expanded line whose numbers fit puts its command's word before the words of the rest. -/
theorem wordsOf_cons {a : AsmLine} {i : Instr} {lines : List AsmLine} {ws : List CmdWord}
    (ha : AsmLine.instr a = some i) (hrest : wordsOf lines = some ws) :
    wordsOf (a :: lines) = some (encode i :: ws) := by
  simp [wordsOf, ha, hrest]

theorem instr_predict {pc : Nat} (h : pc < 2 ^ 32) :
    AsmLine.instr (.predict pc) = some (.predict (BitVec.ofNat 32 pc)) := if_pos h

theorem instr_train {pc : Nat} (o : Direction) (h : pc < 2 ^ 32) :
    AsmLine.instr (.train pc o) = some (.train (BitVec.ofNat 32 pc) o) := if_pos h

/-- The observed defaults fit their fields, so only the strategy code is checked (R96). -/
theorem instr_init_defaults {st : Nat} (h : st < 8) :
    AsmLine.instr (.init st 14 10 13 10 6) = some (decodeInit (BitVec.ofNat 3 st) ⟨14, 10, 13, 10, 6⟩) :=
  if_pos ⟨h, by decide⟩

/-- Settles O16: each line of the expansion is in range, so it gives its command's word. -/
theorem pseudoCommandsExpand : Obligations.PseudoCommandsExpand := by
  constructor
  · intro pc o hpc
    rw [assemble_single]
    exact wordsOf_cons (instr_predict hpc) (wordsOf_cons (instr_train o hpc) rfl)
  · intro st hst
    rw [assemble_single]
    exact wordsOf_cons (instr_init_defaults hst) rfl

end Sys2Proof.Proofs.Encoding

/-! The saturating counter (spec/40_counter.md): an update as arithmetic on the levels 0 to 3, cut off at either end,
the same for a run of equal outcomes, and the settled statements O1 and O2. -/

namespace Sys2Proof.Proofs.Counter

open Sys2Proof.Machine

/-! ### One update as arithmetic on the level -/

/-- A taken outcome adds one, up to `ST` = 3 (R112). -/
theorem toNat_ctrUpdate_taken (c : Counter) : (ctrUpdate c .taken).toNat = min (c.toNat + 1) 3 := by
  by_cases hc : c = Machine.ST
  · subst hc; rfl
  · simp only [ctrUpdate, if_neg hc]
    bv_omega

/-- A not-taken outcome subtracts one, down to `SN` = 0: the natural subtraction saturates as the counter does
(R112). -/
theorem toNat_ctrUpdate_notTaken (c : Counter) : (ctrUpdate c .notTaken).toNat = c.toNat - 1 := by
  by_cases hc : c = SN
  · subst hc; rfl
  · simp only [ctrUpdate, if_neg hc]
    bv_omega

/-! ### The two senses of monotone (R115) -/

theorem le_ctrUpdate_taken (c : Counter) : c ≤ ctrUpdate c .taken := by
  rw [BitVec.le_def, toNat_ctrUpdate_taken]
  omega

theorem ctrUpdate_notTaken_le (c : Counter) : ctrUpdate c .notTaken ≤ c := by
  rw [BitVec.le_def, toNat_ctrUpdate_notTaken]
  omega

theorem ctrUpdate_mono {c c' : Counter} (o : Direction) (h : c ≤ c') : ctrUpdate c o ≤ ctrUpdate c' o := by
  rw [BitVec.le_def] at h ⊢
  cases o with
  | taken => simp only [toNat_ctrUpdate_taken]; omega
  | notTaken => simp only [toNat_ctrUpdate_notTaken]; omega

/-! ### A run of equal outcomes -/

theorem toNat_iterate_taken (n : Nat) (c : Counter) :
    ((fun x => ctrUpdate x .taken)^[n] c).toNat = min (c.toNat + n) 3 := by
  induction n with
  | zero => rw [Function.iterate_zero_apply]; omega
  | succ n ih => rw [Function.iterate_succ_apply', toNat_ctrUpdate_taken, ih]; omega

theorem toNat_iterate_notTaken (n : Nat) (c : Counter) :
    ((fun x => ctrUpdate x .notTaken)^[n] c).toNat = c.toNat - n := by
  induction n with
  | zero => rfl
  | succ n ih => rw [Function.iterate_succ_apply', toNat_ctrUpdate_notTaken, ih]; omega

theorem iterate_taken_eq_ST {n : Nat} (hn : 3 ≤ n) (c : Counter) : (fun x => ctrUpdate x .taken)^[n] c = Machine.ST := by
  apply BitVec.eq_of_toNat_eq
  rw [toNat_iterate_taken]
  exact min_eq_right (by omega)

theorem iterate_notTaken_eq_SN {n : Nat} (hn : 3 ≤ n) (c : Counter) :
    (fun x => ctrUpdate x .notTaken)^[n] c = SN := by
  apply BitVec.eq_of_toNat_eq
  rw [toNat_iterate_notTaken]
  exact Nat.sub_eq_zero_of_le (by omega)

/-! ### The settled statements -/

/-- Settles O1: the four predictions and eight transitions, each by evaluation. -/
theorem counterTransitionTable : Obligations.CounterTransitionTable := by
  unfold Obligations.CounterTransitionTable
  decide

/-- Settles O2: order and saturation are read off the level arithmetic of an update and of a run of updates. -/
theorem counterMonotoneAndSaturating : Obligations.CounterMonotoneAndSaturating := fun c =>
  ⟨⟨le_ctrUpdate_taken c, ctrUpdate_notTaken_le c⟩, fun _ o h => ctrUpdate_mono o h,
    fun _ hn => iterate_taken_eq_ST hn c, fun _ hn => iterate_notTaken_eq_SN hn c⟩

end Sys2Proof.Proofs.Counter

/-! The bit-field utilities (spec/41_bitfield.md): `lowerBits` at its mask and at the ends of its range, `shiftIn` as
arithmetic and bit by bit, and the settled statements O3 and O5. -/

namespace Sys2Proof.Proofs.BitField

open Sys2Proof.Machine Sys2Proof.Laws

/-! ### lowerBits (R120) -/

theorem lowerBits_eq_and_mask (v n : Nat) : lowerBits v n = v &&& (1 <<< n - 1) := by
  rw [Nat.one_shiftLeft, Nat.and_two_pow_sub_one_eq_mod]
  rfl

theorem lowerBits_of_lt {v n : Nat} (h : v < 2 ^ n) : lowerBits v n = v := Nat.mod_eq_of_lt h

@[simp] theorem lowerBits_zero (v : Nat) : lowerBits v 0 = 0 := Nat.lt_one_iff.mp (lowerBits_lt v 0)

/-! ### shiftIn (R122) -/

theorem toNat_bit (o : Direction) : o.bit.toNat = if o = .taken then 1 else 0 := by
  cases o <;> rfl

/-- The shift leaves bit 0 clear, so putting the outcome there is an addition. -/
theorem shiftIn_eq_double_add (histW : Nat) (h : History) (o : Direction) :
    shiftIn histW h o = (2 * h + (if o = .taken then 1 else 0)) % 2 ^ histW := by
  have hor : h <<< 1 + o.bit.toNat = h <<< 1 ||| o.bit.toNat := Nat.shiftLeft_add_eq_or_of_lt o.bit.isLt h
  rw [shiftIn, ← hor, Nat.shiftLeft_eq, pow_one, Nat.mul_comm, toNat_bit]

theorem testBit_shiftIn_zero {histW : Nat} (hw : 1 ≤ histW) (h : History) (o : Direction) :
    (shiftIn histW h o).testBit 0 = (o == .taken) := by
  rw [testBit_shiftIn, decide_eq_true (show 0 < histW from hw), Bool.true_and, if_pos rfl]

theorem testBit_shiftIn_succ {histW i : Nat} (hi : i + 1 < histW) (h : History) (o : Direction) :
    (shiftIn histW h o).testBit (i + 1) = h.testBit i := by
  simp [testBit_shiftIn, hi]

/-! ### The settled statements -/

/-- Settles O3: only the clause at `n = W` needs the value to fit in its width. -/
theorem lowerBitsMasksTheValue : Obligations.LowerBitsMasksTheValue := fun _ v n hv _ =>
  ⟨lowerBits_eq_and_mask v n, rfl, lowerBits_of_lt hv, lowerBits_zero v⟩

/-- Settles O5: the arithmetic form, the range, and the two kinds of bit: the outcome's and the moved ones. -/
theorem shiftInMovesEveryBitUp : Obligations.ShiftInMovesEveryBitUp := fun histW h o hw _ =>
  ⟨shiftIn_eq_double_add histW h o, shiftIn_lt histW h o, testBit_shiftIn_zero hw h o,
    fun _ hi => testBit_shiftIn_succ hi h o⟩

end Sys2Proof.Proofs.BitField

/-! Answering a command (R81, R88): each command that succeeds, as the state it leaves, in the terms of the statements
(`answered`), for whichever strategy is active. -/

namespace Sys2Proof.Proofs.Answer

open Sys2Proof.Machine Sys2Proof.Safety Sys2Proof.Laws

/-- The response of a command that succeeds without a record is a prediction's word, `NotTaken` standing for none
(R88, R202). -/
theorem respond_ok_eq_answered (d : Direction) (s : State) :
    respond .ok [] d s = answered (predictionWord d) s := by
  cases d <;> rfl

theorem respond_done_eq_answered (s : State) : respond .ok [] .notTaken s = answered 0b0000#4 s :=
  respond_ok_eq_answered .notTaken s

/-- A `PREDICT` that the active strategy answers, no table holding a value that is not a level (R194, R195). -/
theorem exec_predict_of_prediction {pc : Pc} {s : State} {pr : Prediction}
    (hstop : s.engine.stop s.cfg.histW s.widths = none) (hpred : s.engine.predict s.widths pc = some pr)
    (hdiag : pr.diag = []) : exec (.predict pc) s = .next (answered (predictionWord pr.dir) s) := by
  simp only [exec, execPredict, hstop, hpred, hdiag, respond_ok_eq_answered]

/-- A `TRAIN` that the active strategy takes in (R196). -/
theorem exec_train_of_trained {pc : Pc} {o : Direction} {s : State} {e : Engine}
    (hstop : s.engine.stop s.cfg.histW s.widths = none)
    (htrain : s.engine.train s.cfg.histW s.widths pc o = some (e, [])) :
    exec (.train pc o) s = .next (answered 0b0000#4 { s with engine := e }) := by
  simp only [exec, execTrain, hstop, htrain, respond_done_eq_answered]

/-- An `INIT` whose checks pass, as its answer (R190). -/
theorem initialise_eq_answered {cross : Bool} (e : Engine) {p : Widths} {s : State}
    (hlegal : widthsLegal s.cfg.maxBits p) (hcross : cross = true → p.l.toNat ≤ p.g.toNat) :
    initialise cross e p s = answered 0b0000#4 { s with engine := e, widths := p } := by
  rw [initialise_valid e hlegal hcross, respond_done_eq_answered]

/-! ### Arrays that commands create and update -/

/-- A freshly created array is canonical at every size (R50, R60). -/
theorem new_arraySound {α : Type} (v : α) (n : Nat) : ArraySound (Memory.new v) n :=
  ⟨new_wf v, new_within v n⟩

theorem read_updateCell_same (m : Memory Counter) (i : Nat) (o : Direction) :
    (updateCell m i o).read i = ctrUpdate (m.read i) o :=
  read_write_same m i _

theorem read_updateCell_other (m : Memory Counter) {i j : Nat} (o : Direction) (h : j ≠ i) :
    (updateCell m i o).read j = m.read j :=
  read_write_other m _ h

end Sys2Proof.Proofs.Answer

/-! The Gshare strategy (spec/42_gshare.md): the index formulas it shares with the other strategies, its `INIT`,
`PREDICT` and `TRAIN`, and the settled statements O9, O23, O29 and O34. -/

namespace Sys2Proof.Proofs.Gshare

open Sys2Proof.Machine Sys2Proof.Safety Sys2Proof.Laws Sys2Proof.Proofs.Answer

/-! ### The index formulas (R130, R140 to R142, R160 to R163) -/

theorem hashIndex_eq_xor (pc : Pc) (h : History) (n : Nat) :
    hashIndex pc h n = (pc.toNat % 2 ^ n) ^^^ (h % 2 ^ n) := rfl

/-- With no history the index is the `pc` alone. -/
theorem gIndex_zero_history (pc : Pc) (g : Nat) : gIndex pc 0 g = pc.toNat % 2 ^ g := by
  rw [gIndex, hashIndex_eq_xor, Nat.zero_mod, Nat.xor_zero]

theorem pcSlot_eq_mod (pc : Pc) (l : Nat) : pcSlot pc l = pc.toNat % 2 ^ l := rfl

theorem choiceIndex_eq_mod (pc : Pc) (c : Nat) : choiceIndex pc c = pc.toNat % 2 ^ c := rfl

theorem localIndex_eq_mod (lhist : Memory History) (pc : Pc) (l : Nat) :
    localIndex lhist pc l = lhist.read (pc.toNat % 2 ^ l) % 2 ^ l := rfl

theorem cacheIndex_eq_mod (pc : Pc) (ghr : History) (c k : Nat) :
    cacheIndex pc ghr c k = ((pc.toNat % 2 ^ c) ^^^ (ghr % 2 ^ c)) % 2 ^ k := rfl

/-- Under one history the index sees only the low bits of the `pc`: the aliasing of R132. -/
theorem gIndex_congr {pc pc' : Pc} {g : Nat} (h : lowerBits pc'.toNat g = lowerBits pc.toNat g) (ghr : History) :
    gIndex pc' ghr g = gIndex pc ghr g := by
  rw [gIndex, gIndex, hashIndex, hashIndex, h]

/-- Settles O9: each formula by its own equation; the tag's goes through the 32 bits of a tag cell. -/
theorem derivedIndexFormulas : Obligations.DerivedIndexFormulas := fun pc ghr lhist g l c k t _ _ _ _ _ =>
  ⟨hashIndex_eq_xor pc ghr g, gIndex_lt pc ghr g, gIndex_zero_history pc g, pcSlot_eq_mod pc l,
    localIndex_eq_mod lhist pc l, choiceIndex_eq_mod pc c, hashIndex_eq_xor pc ghr c, cacheIndex_eq_mod pc ghr c k,
    tagBits_toNat pc t⟩

/-! ### The three commands under Gshare (R131 to R134) -/

/-- Settles O23: the checks pass, and the created table is new, hence `WN` in every cell and canonical. -/
theorem initGshareResult : Obligations.InitGshareResult := by
  intro p s hlegal
  have hinit := initialise_eq_answered (cross := false) (.gshare gshareInit) hlegal nofun
  exact ⟨gshareInit, congrArg Host.Outcome.next hinit, rfl, new_read WN, new_arraySound WN p.g.toNat⟩

/-- The widths of the statements are those under which the Gshare index has a meaning. -/
theorem stop_of_engine_gshare {s : State} {x : GshareState} (he : s.engine = .gshare x)
    (hg : s.widths.g.toNat ≤ indexLimit s.cfg.histW) : s.engine.stop s.cfg.histW s.widths = none := by
  rw [he]
  exact (stop_gshare x s.cfg.histW s.widths).mpr hg

/-- The one cell a `PREDICT` reads decides its answer (R132). -/
theorem exec_predict_gshare (pc : Pc) {s : State} {x : GshareState} (he : s.engine = .gshare x)
    (hg : s.widths.g.toNat ≤ indexLimit s.cfg.histW) :
    exec (.predict pc) s = .next (answered
      (predictionWord (ctrPredict (x.table.read (gIndex pc x.ghr s.widths.g.toNat)))) s) := by
  have hpred : s.engine.predict s.widths pc = some (gsharePredict s.widths pc x) := by rw [he]; rfl
  exact exec_predict_of_prediction (stop_of_engine_gshare he hg) hpred (predictCell_diag _ _ _)

/-- Settles O29: the answer is a function of the index, and `pc` values with equal low bits share it. -/
theorem predictUnderGshare : Obligations.PredictUnderGshare := by
  intro pc s x he hg
  refine ⟨exec_predict_gshare pc he hg, fun pc' hlow => ?_⟩
  rw [exec_predict_gshare pc he hg, exec_predict_gshare pc' he hg, gIndex_congr hlow]

theorem exec_train_gshare (pc : Pc) (o : Direction) {s : State} {x : GshareState} (he : s.engine = .gshare x)
    (hg : s.widths.g.toNat ≤ indexLimit s.cfg.histW) :
    exec (.train pc o) s = .next (answered 0b0000#4
      { s with engine := .gshare (gshareTrain s.cfg.histW s.widths pc o x) }) := by
  have htrain : s.engine.train s.cfg.histW s.widths pc o
      = some (.gshare (gshareTrain s.cfg.histW s.widths pc o x), []) := by rw [he]; rfl
  exact exec_train_of_trained (stop_of_engine_gshare he hg) htrain

/-- Settles O34: the trained state is the witness; its table is the old one with the cell of the old index updated. -/
theorem trainUnderGshare : Obligations.TrainUnderGshare := by
  intro pc o s x he hg i
  exact ⟨gshareTrain s.cfg.histW s.widths pc o x, exec_train_gshare pc o he hg, rfl,
    read_updateCell_same x.table i o, fun _ hj => read_updateCell_other x.table o hj⟩

end Sys2Proof.Proofs.Gshare

/-! The Tournament strategy (spec/43_tournament.md): which sub-prediction answers, what a training writes in each of the
four arrays, and the settled statements O24, O30 and O35. -/

namespace Sys2Proof.Proofs.Tournament

open Sys2Proof.Machine Sys2Proof.Safety Sys2Proof.Laws Sys2Proof.Proofs.Answer

/-! ### The choice cell (R144, R147, R149) -/

/-- The Taken side of the four levels (R110, R111). -/
theorem ctrPredict_eq_taken_iff (c : Counter) : ctrPredict c = .taken ↔ c = WT ∨ c = Machine.ST := by
  revert c; decide

/-- On agreement the choice array is the old one: no cell of it is written (R147). -/
theorem choiceTrain_of_agree {lpred gpred : Direction} (h : lpred = gpred) (o : Direction) (slot : Nat)
    (m : Memory Counter) : choiceTrain lpred gpred o slot m = m :=
  if_pos h

theorem choiceTrain_of_disagree {lpred gpred : Direction} (h : lpred ≠ gpred) (o : Direction) (slot : Nat)
    (m : Memory Counter) :
    choiceTrain lpred gpred o slot m = updateCell m slot (if lpred = o then .taken else .notTaken) :=
  if_neg h

theorem read_choiceTrain_of_localRight {lpred gpred o : Direction} (h : lpred ≠ gpred) (ho : o = lpred) (slot : Nat)
    (m : Memory Counter) : (choiceTrain lpred gpred o slot m).read slot = ctrUpdate (m.read slot) .taken := by
  rw [choiceTrain_of_disagree h, if_pos ho.symm, read_updateCell_same]

theorem read_choiceTrain_of_localWrong {lpred gpred o : Direction} (h : lpred ≠ gpred) (ho : o ≠ lpred) (slot : Nat)
    (m : Memory Counter) : (choiceTrain lpred gpred o slot m).read slot = ctrUpdate (m.read slot) .notTaken := by
  rw [choiceTrain_of_disagree h, if_neg ho.symm, read_updateCell_same]

theorem read_choiceTrain_other (lpred gpred o : Direction) {slot j : Nat} (m : Memory Counter) (hj : j ≠ slot) :
    (choiceTrain lpred gpred o slot m).read j = m.read j := by
  by_cases h : lpred = gpred
  · rw [choiceTrain_of_agree h]
  · rw [choiceTrain_of_disagree h, read_updateCell_other m _ hj]

/-! ### The selected prediction (R145) -/

/-- The choice cell's level selects between the two sub-predictions, its Taken side the local one. -/
theorem tournamentPredict_dir (p : Widths) (pc : Pc) (x : TournamentState) :
    (tournamentPredict p pc x).dir
      = if x.choice.read (pcSlot pc p.l.toNat) = WT ∨ x.choice.read (pcSlot pc p.l.toNat) = Machine.ST
        then (localPrediction p pc x).dir else (globalPrediction p pc x).dir :=
  if_congr (ctrPredict_eq_taken_iff _) rfl rfl

/-- No cell read holds a value that is not a level, so none of the three reads leaves a record (R41, R213). -/
theorem tournamentPredict_diag (p : Widths) (pc : Pc) (x : TournamentState) : (tournamentPredict p pc x).diag = [] := by
  simp [tournamentPredict, globalPrediction, localPrediction, choicePrediction]

theorem tournamentTrainDiag_nil (p : Widths) (pc : Pc) (x : TournamentState) : tournamentTrainDiag p pc x = [] := by
  simp [tournamentTrainDiag, globalPrediction, localPrediction]

/-! ### The three commands under Tournament (R143, R145 to R149) -/

/-- The widths of the statements are those under which the Tournament indices have a meaning. -/
theorem stop_of_engine_tournament {s : State} {x : TournamentState} (he : s.engine = .tournament x)
    (hg : s.widths.g.toNat ≤ indexLimit s.cfg.histW) (hl : s.widths.l.toNat ≤ s.widths.g.toNat) :
    s.engine.stop s.cfg.histW s.widths = none := by
  rw [he]
  exact (stop_tournament x s.cfg.histW s.widths).mpr ⟨hg, hl⟩

theorem exec_predict_tournament (pc : Pc) {s : State} {x : TournamentState} (he : s.engine = .tournament x)
    (hg : s.widths.g.toNat ≤ indexLimit s.cfg.histW) (hl : s.widths.l.toNat ≤ s.widths.g.toNat) :
    exec (.predict pc) s = .next (answered (predictionWord (tournamentPredict s.widths pc x).dir) s) := by
  have hpred : s.engine.predict s.widths pc = some (tournamentPredict s.widths pc x) := by rw [he]; rfl
  exact exec_predict_of_prediction (stop_of_engine_tournament he hg hl) hpred (tournamentPredict_diag _ _ _)

theorem exec_train_tournament (pc : Pc) (o : Direction) {s : State} {x : TournamentState}
    (he : s.engine = .tournament x) (hg : s.widths.g.toNat ≤ indexLimit s.cfg.histW)
    (hl : s.widths.l.toNat ≤ s.widths.g.toNat) :
    exec (.train pc o) s = .next (answered 0b0000#4
      { s with engine := .tournament (tournamentTrain s.cfg.histW s.widths pc o x) }) := by
  have htrain : s.engine.train s.cfg.histW s.widths pc o
      = some (.tournament (tournamentTrain s.cfg.histW s.widths pc o x), []) := by
    rw [he, ← tournamentTrainDiag_nil s.widths pc x]; rfl
  exact exec_train_of_trained (stop_of_engine_tournament he hg hl) htrain

/-- Settles O24: both checks pass, and each of the four created arrays is new, hence at its parameter in every cell. -/
theorem initTournamentResult : Obligations.InitTournamentResult := by
  intro p s hlegal hcross
  have hinit := initialise_eq_answered (cross := true) (.tournament (tournamentInit s.cfg)) hlegal fun _ => hcross
  exact ⟨tournamentInit s.cfg, congrArg Host.Outcome.next hinit, rfl,
    new_read _, new_arraySound _ _, new_read _, new_arraySound _ _,
    new_read _, new_arraySound _ _, new_read _, new_arraySound _ _⟩

/-- Settles O30: the answer is the selected sub-prediction; where both are the same direction, the selection is idle. -/
theorem predictUnderTournament : Obligations.PredictUnderTournament := by
  intro pc s x he hg hl gi ps li gpred lpred
  have hanswer : exec (.predict pc) s = .next (answered
      (predictionWord (if x.choice.read ps = 2#2 ∨ x.choice.read ps = 3#2 then lpred else gpred)) s) :=
    tournamentPredict_dir s.widths pc x ▸ exec_predict_tournament pc he hg hl
  refine ⟨hanswer, fun hagree => ?_⟩
  rw [hanswer, ← hagree, ite_self]

/-- Settles O35: the trained state is the witness; its arrays are the old ones with one cell written, at an index of the
state before, the choice array only where the sub-predictions disagree. -/
theorem trainUnderTournament : Obligations.TrainUnderTournament := by
  intro pc o s x he hg hl gi ps li gpred lpred
  exact ⟨tournamentTrain s.cfg.histW s.widths pc o x, exec_train_tournament pc o he hg hl, rfl,
    read_updateCell_same x.globalTable gi o, fun _ hj => read_updateCell_other x.globalTable o hj,
    read_updateCell_same x.localTable li o, fun _ hj => read_updateCell_other x.localTable o hj,
    read_write_same x.localHist ps _, fun _ hj => read_write_other x.localHist _ hj,
    fun hagree => choiceTrain_of_agree hagree o ps x.choice,
    fun hne hright => read_choiceTrain_of_localRight hne hright ps x.choice,
    fun hne hwrong => read_choiceTrain_of_localWrong hne hwrong ps x.choice,
    fun _ hj => read_choiceTrain_other lpred gpred o x.choice hj⟩

end Sys2Proof.Proofs.Tournament

/-! The Custom strategy (spec/44_custom_yags.md): the cache the baseline selects, what a hit and an allocation write in
it, what a training leaves alone, and the settled statements O25, O31 and O36 to O39. -/

namespace Sys2Proof.Proofs.Custom

open Sys2Proof.Machine Sys2Proof.Safety Sys2Proof.Laws Sys2Proof.Proofs.Answer

/-! ### Lookup (R164) -/

theorem cacheLookup_of_way0 {c : Cache} {set : Nat} {tg : Tag} (h : c.way0.tag.read set = tg) :
    cacheLookup c set tg = some 0#1 :=
  if_pos h

theorem cacheLookup_of_way1 {c : Cache} {set : Nat} {tg : Tag} (h0 : c.way0.tag.read set ≠ tg)
    (h1 : c.way1.tag.read set = tg) : cacheLookup c set tg = some 1#1 :=
  (if_neg h0).trans (if_pos h1)

theorem cacheLookup_of_miss {c : Cache} {set : Nat} {tg : Tag} (h0 : c.way0.tag.read set ≠ tg)
    (h1 : c.way1.tag.read set ≠ tg) : cacheLookup c set tg = none :=
  (if_neg h0).trans (if_neg h1)

/-! ### The cache action of a training (R167 to R171) -/

theorem cacheTrain_of_hit {c : Cache} {set : Nat} {tg : Tag} {w : WayNo} (h : cacheLookup c set tg = some w)
    (base o : Direction) : cacheTrain c set tg base o = hitUpdate c set w o := by
  rw [cacheTrain, h]

theorem cacheTrain_of_wrong_miss {c : Cache} {set : Nat} {tg : Tag} {base o : Direction}
    (h : cacheLookup c set tg = none) (hb : base ≠ o) : cacheTrain c set tg base o = allocate c set tg o := by
  simp only [cacheTrain, h, if_neg hb]

theorem cacheTrain_of_right_miss {c : Cache} {set : Nat} {tg : Tag} {base o : Direction}
    (h : cacheLookup c set tg = none) (hb : base = o) : cacheTrain c set tg base o = c := by
  simp only [cacheTrain, h, if_pos hb]

/-- A hit makes the way that did not hit the least recently used (R126, R168). -/
theorem read_lru_hitUpdate (c : Cache) (set : Nat) (w : WayNo) (o : Direction) :
    (hitUpdate c set w o).lru.read set = otherWay w :=
  read_write_same c.lru set _

theorem freshCounter_eq_ite (o : Direction) : freshCounter o = if o = .taken then 2#2 else 1#2 := by
  cases o <;> rfl

/-- The way a fresh entry leaves where `x` was (R169). -/
def freshWay (x : Way) (set : Nat) (tg : Tag) (o : Direction) : Way where
  tag := x.tag.write set tg
  ctr := x.ctr.write set (freshCounter o)

theorem read_tag_freshWay (x : Way) (set : Nat) (tg : Tag) (o : Direction) : (freshWay x set tg o).tag.read set = tg :=
  read_write_same x.tag set tg

theorem read_ctr_freshWay (x : Way) (set : Nat) (tg : Tag) (o : Direction) :
    (freshWay x set tg o).ctr.read set = if o = .taken then 2#2 else 1#2 :=
  (read_write_same x.ctr set _).trans (freshCounter_eq_ite o)

/-- An allocation replaces the way its LRU cell names, and that cell then names the other (R169). -/
theorem allocate_of_victim {c : Cache} {set : Nat} {v : WayNo} (h : c.lru.read set = v) (tg : Tag) (o : Direction) :
    allocate c set tg o
      = { c.setWay v (freshWay (c.way v) set tg o) with lru := c.lru.write set (otherWay v) } := by
  subst h; rfl

/-! ### Every other set keeps its contents (R167) -/

/-- Two ways with the same tag and counter in set `j`. -/
def WaysAgreeAt (j : Nat) (a b : Way) : Prop :=
  a.tag.read j = b.tag.read j ∧ a.ctr.read j = b.ctr.read j

/-- Two caches whose set `j` is the same, the five cells of R35. -/
def SetsAgreeAt (j : Nat) (a b : Cache) : Prop :=
  a.way0.tag.read j = b.way0.tag.read j ∧ a.way1.tag.read j = b.way1.tag.read j
    ∧ a.way0.ctr.read j = b.way0.ctr.read j ∧ a.way1.ctr.read j = b.way1.ctr.read j
    ∧ a.lru.read j = b.lru.read j

theorem SetsAgreeAt.refl (j : Nat) (c : Cache) : SetsAgreeAt j c c := ⟨rfl, rfl, rfl, rfl, rfl⟩

/-- What a hit and an allocation have in common: one way replaced and the LRU cell of the set written. -/
theorem setsAgreeAt_setWay {c : Cache} {set j : Nat} {w : WayNo} {x : Way} (hx : WaysAgreeAt j x (c.way w))
    (v : WayNo) (hj : j ≠ set) : SetsAgreeAt j { c.setWay w x with lru := c.lru.write set v } c := by
  have hlru : (c.lru.write set v).read j = c.lru.read j := read_write_other c.lru v hj
  by_cases hw : w = 0#1
  · subst hw
    obtain ⟨htag, hctr⟩ := hx
    exact ⟨htag, rfl, hctr, rfl, hlru⟩
  · have hway : c.way w = c.way1 := if_neg hw
    have hset : c.setWay w x = { c with way1 := x } := if_neg hw
    rw [hway] at hx
    rw [hset]
    obtain ⟨htag, hctr⟩ := hx
    exact ⟨rfl, htag, rfl, hctr, hlru⟩

theorem setsAgreeAt_hitUpdate (c : Cache) {set j : Nat} (w : WayNo) (o : Direction) (hj : j ≠ set) :
    SetsAgreeAt j (hitUpdate c set w o) c :=
  have hway : WaysAgreeAt j { c.way w with ctr := updateCell (c.way w).ctr set o } (c.way w) :=
    ⟨rfl, read_updateCell_other (c.way w).ctr o hj⟩
  setsAgreeAt_setWay hway (otherWay w) hj

theorem setsAgreeAt_allocate (c : Cache) {set j : Nat} (tg : Tag) (o : Direction) (hj : j ≠ set) :
    SetsAgreeAt j (allocate c set tg o) c :=
  setsAgreeAt_setWay ⟨read_write_other _ tg hj, read_write_other _ _ hj⟩ _ hj

theorem setsAgreeAt_cacheTrain (c : Cache) {set j : Nat} (tg : Tag) (base o : Direction) (hj : j ≠ set) :
    SetsAgreeAt j (cacheTrain c set tg base o) c := by
  rcases cacheTrain_cases c set tg base o with ⟨w, _, hhit⟩ | ⟨_, _, halloc⟩ | ⟨_, _, hkeep⟩
  · rw [hhit]; exact setsAgreeAt_hitUpdate c w o hj
  · rw [halloc]; exact setsAgreeAt_allocate c tg o hj
  · rw [hkeep]; exact SetsAgreeAt.refl j c

/-! ### The selected cache (R164) -/

/-- The cache a baseline selects, as the statements spell it. -/
def cacheOf (d : Direction) (x : CustomState) : Cache :=
  if d = .taken then x.tc else x.nc

theorem cacheOf_eq_cache_selectCache (d : Direction) (x : CustomState) : cacheOf d x = x.cache (selectCache d) := by
  cases d <;> rfl

theorem cache_setCache_other (x : CustomState) (c : Cache) {n m : CacheName} (h : n ≠ m) :
    (x.setCache m c).cache n = x.cache n := by
  cases n <;> cases m
  · exact absurd rfl h
  · rfl
  · rfl
  · exact absurd rfl h

section Strategy

variable (histW : Nat) (p : Widths) (pc : Pc) (o : Direction) (x : CustomState)

/-! ### The answer (R166) -/

theorem customPredict_dir_of_hit {w : WayNo}
    (h : cacheLookup (cacheOf (baseline p pc x).dir x) (cacheIndex pc x.ghr p.c.toNat p.k.toNat) (tagOf pc p.t.toNat)
      = some w) :
    (customPredict p pc x).dir
      = ctrPredict (((cacheOf (baseline p pc x).dir x).way w).ctr.read (cacheIndex pc x.ghr p.c.toNat p.k.toNat)) := by
  rw [cacheOf_eq_cache_selectCache] at h ⊢
  simp only [customPredict, h, predictCell_dir]

theorem customPredict_dir_of_miss
    (h : cacheLookup (cacheOf (baseline p pc x).dir x) (cacheIndex pc x.ghr p.c.toNat p.k.toNat) (tagOf pc p.t.toNat)
      = none) :
    (customPredict p pc x).dir = (baseline p pc x).dir := by
  rw [cacheOf_eq_cache_selectCache] at h
  simp only [customPredict, h]

theorem baseline_diag : (baseline p pc x).diag = [] := predictCell_diag _ _ _

/-- Neither the choice cell nor a hit's counter is ever outside the levels, so no record is made (R41, R213). -/
theorem customPredict_diag : (customPredict p pc x).diag = [] := by
  unfold customPredict
  dsimp only
  split
  · simp only [baseline_diag, predictCell_diag, List.append_nil]
  · exact baseline_diag p pc x

/-! ### What a training leaves (R167) -/

/-- The selected cache gets the cache action. -/
theorem cacheOf_customTrain :
    cacheOf (baseline p pc x).dir (customTrain histW p pc o x)
      = cacheTrain (cacheOf (baseline p pc x).dir x) (cacheIndex pc x.ghr p.c.toNat p.k.toNat)
          (tagOf pc p.t.toNat) (baseline p pc x).dir o := by
  rw [cacheOf_eq_cache_selectCache, cacheOf_eq_cache_selectCache]
  exact setCache_same x _ _

/-- The other cache is left as it is. -/
theorem cache_customTrain_other {n : CacheName} (h : n ≠ selectCache (baseline p pc x).dir) :
    (customTrain histW p pc o x).cache n = x.cache n :=
  cache_setCache_other x _ h

/-- Both caches change in the one set of the index at most. -/
theorem setsAgreeAt_customTrain (n : CacheName) {j : Nat} (hj : j ≠ cacheIndex pc x.ghr p.c.toNat p.k.toNat) :
    SetsAgreeAt j ((customTrain histW p pc o x).cache n) (x.cache n) := by
  by_cases hn : n = selectCache (baseline p pc x).dir
  · rw [hn, ← cacheOf_eq_cache_selectCache, ← cacheOf_eq_cache_selectCache, cacheOf_customTrain]
    exact setsAgreeAt_cacheTrain _ _ _ o hj
  · rw [cache_customTrain_other histW p pc o x hn]
    exact SetsAgreeAt.refl j _

/-- An action that keeps the selected cache keeps both. -/
theorem caches_customTrain_of_kept
    (h : cacheOf (baseline p pc x).dir (customTrain histW p pc o x) = cacheOf (baseline p pc x).dir x)
    (n : CacheName) : (customTrain histW p pc o x).cache n = x.cache n := by
  rw [cacheOf_eq_cache_selectCache, cacheOf_eq_cache_selectCache] at h
  by_cases hn : n = selectCache (baseline p pc x).dir
  · rw [hn, h]
  · exact cache_customTrain_other histW p pc o x hn

end Strategy

/-! ### The three commands under Custom (R165 to R170) -/

/-- The widths of the statements are those under which the Custom indices and the tag have a meaning. -/
theorem stop_of_engine_custom {s : State} {x : CustomState} (he : s.engine = .custom x)
    (hc : s.widths.c.toNat ≤ indexLimit s.cfg.histW) (hk : s.widths.k.toNat ≤ 32) (ht : s.widths.t.toNat ≤ 32) :
    s.engine.stop s.cfg.histW s.widths = none := by
  rw [he]
  exact (stop_custom x s.cfg.histW s.widths).mpr ⟨hc, hk, ht⟩

theorem exec_predict_custom (pc : Pc) {s : State} {x : CustomState} (he : s.engine = .custom x)
    (hc : s.widths.c.toNat ≤ indexLimit s.cfg.histW) (hk : s.widths.k.toNat ≤ 32) (ht : s.widths.t.toNat ≤ 32) :
    exec (.predict pc) s = .next (answered (predictionWord (customPredict s.widths pc x).dir) s) := by
  have hpred : s.engine.predict s.widths pc = some (customPredict s.widths pc x) := by rw [he]; rfl
  exact exec_predict_of_prediction (stop_of_engine_custom he hc hk ht) hpred (customPredict_diag _ _ _)

theorem train_custom (pc : Pc) (o : Direction) {s : State} {x : CustomState} (he : s.engine = .custom x) :
    s.engine.train s.cfg.histW s.widths pc o = some (.custom (customTrain s.cfg.histW s.widths pc o x), []) := by
  rw [he, ← baseline_diag s.widths pc x]; rfl

theorem exec_train_custom (pc : Pc) (o : Direction) {s : State} {x : CustomState} (he : s.engine = .custom x)
    (hc : s.widths.c.toNat ≤ indexLimit s.cfg.histW) (hk : s.widths.k.toNat ≤ 32) (ht : s.widths.t.toNat ≤ 32) :
    exec (.train pc o) s = .next (answered 0b0000#4
      { s with engine := .custom (customTrain s.cfg.histW s.widths pc o x) }) :=
  exec_train_of_trained (stop_of_engine_custom he hc hk ht) (train_custom pc o he)

/-- Whatever its widths, a `TRAIN` under Custom that answers leaves the trained strategy state. -/
theorem eq_customTrain_of_exec_train {pc : Pc} {o : Direction} {s t : State} {x y : CustomState}
    (he : s.engine = .custom x) (hexec : exec (.train pc o) s = .next t) (hy : t.engine = .custom y) :
    y = customTrain s.cfg.histW s.widths pc o x := by
  have htrain := train_custom pc o he
  rcases execTrain_cases hexec with ⟨_, hnone, _⟩ | ⟨e, diag, _, hsome, rfl⟩
  · exact absurd (hnone.symm.trans htrain) nofun
  · obtain ⟨rfl, -⟩ := Prod.mk.inj (Option.some.inj (hsome.symm.trans htrain))
    exact (Engine.custom.inj hy).symm

theorem tagBits_of_lt {v : BitVec 32} {t : Nat} (h : v.toNat < 2 ^ t) : tagBits v t = v :=
  BitVec.eq_of_toNat_eq ((tagBits_toNat v t).trans (Nat.mod_eq_of_lt h))

/-- Settles O25: the checks pass, and both ways of both caches are the one new way; the tag parameter loses no bit. -/
theorem initCustomResult : Obligations.InitCustomResult := by
  intro p s hlegal htag
  have hinit := initialise_eq_answered (cross := false) (.custom (customInit s.cfg p)) hlegal nofun
  refine ⟨customInit s.cfg p, congrArg Host.Outcome.next hinit, rfl, new_read _, new_arraySound _ _, fun c hc => ?_⟩
  obtain rfl : c = cacheInit s.cfg p.t.toNat := List.eq_of_mem_replicate (n := 2) hc
  refine ⟨fun y hy => ?_, new_read _, new_arraySound _ _⟩
  obtain rfl : y = wayInit s.cfg p.t.toNat := List.eq_of_mem_replicate (n := 2) hy
  exact ⟨fun i => (new_read _ i).trans (tagBits_of_lt htag), new_read _, new_arraySound _ _, new_arraySound _ _⟩

/-- Settles O31: one clause for each result of the lookup in the selected cache. -/
theorem predictUnderCustom : Obligations.PredictUnderCustom := by
  intro pc s x he hc hk ht base set tg cache
  rw [exec_predict_custom pc he hc hk ht]
  refine ⟨fun h0 => ?_, fun h0 h1 => ?_, fun h0 h1 => ?_⟩
  · rw [customPredict_dir_of_hit s.widths pc x (cacheLookup_of_way0 h0)]; rfl
  · rw [customPredict_dir_of_hit s.widths pc x (cacheLookup_of_way1 h0 h1)]; rfl
  · rw [customPredict_dir_of_miss s.widths pc x (cacheLookup_of_miss h0 h1)]; rfl

/-- Settles O36: the trained state is the witness; its selected cache is old outside the index's set, whichever
action was taken there. -/
theorem trainUnderCustom : Obligations.TrainUnderCustom := by
  intro pc o s x he hc hk ht ci base set
  refine ⟨customTrain s.cfg.histW s.widths pc o x, exec_train_custom pc o he hc hk ht, rfl,
    read_updateCell_same x.choice ci o, fun _ hj => read_updateCell_other x.choice o hj,
    fun hbase => ?_, fun hbase => ?_, fun n _ hj => setsAgreeAt_customTrain s.cfg.histW s.widths pc o x n hj⟩
  · have hother : CacheName.nc ≠ selectCache base := by rw [hbase]; exact nofun
    exact cache_customTrain_other s.cfg.histW s.widths pc o x hother
  · have hother : CacheName.tc ≠ selectCache base := by rw [hbase]; exact nofun
    exact cache_customTrain_other s.cfg.histW s.widths pc o x hother

/-- Settles O37: a hit is `hit_update` of the way the lookup finds, way 0 first. -/
theorem trainHitUpdatesTheWay : Obligations.TrainHitUpdatesTheWay := by
  intro pc o s t x y he hexec hy base set tg old new
  obtain rfl := eq_customTrain_of_exec_train he hexec hy
  have hnew : new = cacheTrain old set tg base o := cacheOf_customTrain s.cfg.histW s.widths pc o x
  refine ⟨fun h0 => ?_, fun h0 h1 => ?_⟩
  · rw [hnew, cacheTrain_of_hit (cacheLookup_of_way0 h0)]
    exact ⟨read_updateCell_same _ _ _, read_lru_hitUpdate _ _ _ _, rfl, rfl⟩
  · rw [hnew, cacheTrain_of_hit (cacheLookup_of_way1 h0 h1)]
    exact ⟨read_updateCell_same _ _ _, read_lru_hitUpdate _ _ _ _, rfl, rfl⟩

/-- Settles O38: the action is the allocation, whose victim is the way the LRU cell names. -/
theorem trainMissAllocates : Obligations.TrainMissAllocates := by
  intro pc o s t x y he hexec hy base set tg old new fresh h0 h1 hwrong
  obtain rfl := eq_customTrain_of_exec_train he hexec hy
  have hnew : new = allocate old set tg o :=
    (cacheOf_customTrain s.cfg.histW s.widths pc o x).trans
      (cacheTrain_of_wrong_miss (cacheLookup_of_miss h0 h1) hwrong)
  refine ⟨fun hlru => ?_, fun hlru => ?_⟩
  · rw [hnew, allocate_of_victim hlru]
    exact ⟨read_tag_freshWay _ _ _ _, read_ctr_freshWay _ _ _ _, read_write_same _ _ _, rfl⟩
  · rw [hnew, allocate_of_victim hlru]
    exact ⟨read_tag_freshWay _ _ _ _, read_ctr_freshWay _ _ _ _, read_write_same _ _ _, rfl⟩

/-- Settles O39: the selected cache is kept by the action, the other by every training. -/
theorem trainMissWithoutAllocation : Obligations.TrainMissWithoutAllocation := by
  intro pc o s t x y he hexec hy ci base set tg old h0 h1 hright
  obtain rfl := eq_customTrain_of_exec_train he hexec hy
  have hkept := (cacheOf_customTrain s.cfg.histW s.widths pc o x).trans
    (cacheTrain_of_right_miss (cacheLookup_of_miss h0 h1) hright)
  have hcaches := caches_customTrain_of_kept s.cfg.histW s.widths pc o x hkept
  exact ⟨hcaches .tc, hcaches .nc, read_updateCell_same x.choice ci o, rfl⟩

end Sys2Proof.Proofs.Custom

/-! The commands in either mode (R189 to R201): what each can answer and which mode it leaves, as one lemma a command,
and the settled statements O22, O32, O41 and O42. -/

namespace Sys2Proof.Proofs.Dispatcher

open Sys2Proof.Machine Sys2Proof.Safety Sys2Proof.Laws Sys2Proof.Proofs.Answer
open Sys2Proof.Proofs.Encoding (initOf)

/-! ### The mode and the response of the states that answers leave -/

@[simp] theorem answered_mode (r : RspWord) (s : State) : (answered r s).mode = s.mode := rfl

@[simp] theorem answered_rsp (r : RspWord) (s : State) : (answered r s).rsp = some r := rfl

theorem protocolError_eq_answered (s : State) : raise .protocolError s = answered 0b1000#4 s := rfl

theorem illegalCommand_eq_answered (s : State) : raise .illegalCommand s = answered 0b1100#4 s := rfl

/-- A configuration error leaves what R192 asks, whatever was there before. -/
theorem failedInit_configurationError (s : State) : FailedInit s (raise .configurationError s) :=
  ⟨rfl, rfl, rfl, rfl, rfl, rfl⟩

/-! ### PREDICT, TRAIN and TEARDOWN in either mode (R194 to R199, R216) -/

theorem predict_eq_none_iff (e : Engine) (p : Widths) (pc : Pc) : e.predict p pc = none ↔ e.mode = .uninit := by
  cases e <;> simp [Engine.predict, Engine.mode]

theorem train_eq_none_iff (e : Engine) (histW : Nat) (p : Widths) (pc : Pc) (o : Direction) :
    e.train histW p pc o = none ↔ e.mode = .uninit := by
  cases e <;> simp [Engine.train, Engine.mode]

/-- Where there is a prediction there is a strategy, and none makes a diagnostic record (R41). -/
theorem ready_of_predict {e : Engine} {p : Widths} {pc : Pc} {pr : Prediction} (h : e.predict p pc = some pr) :
    e.mode = .ready ∧ pr.diag = [] := by
  cases e with
  | uninit b => cases h
  | static => cases h; exact ⟨rfl, rfl⟩
  | gshare x => cases h; exact ⟨rfl, predictCell_diag _ _ _⟩
  | tournament x => cases h; exact ⟨rfl, Tournament.tournamentPredict_diag p pc x⟩
  | custom x => cases h; exact ⟨rfl, Custom.customPredict_diag p pc x⟩

/-- A training starts from a strategy state, leaves one, and makes no diagnostic record (R41, R197). -/
theorem ready_of_train {e e' : Engine} {histW : Nat} {p : Widths} {pc : Pc} {o : Direction}
    {diag : List DiagRecord} (h : e.train histW p pc o = some (e', diag)) :
    e.mode = .ready ∧ e'.mode = .ready ∧ diag = [] := by
  cases e with
  | uninit b => cases h
  | static => cases h; exact ⟨rfl, rfl, rfl⟩
  | gshare x => cases h; exact ⟨rfl, rfl, rfl⟩
  | tournament x => cases h; exact ⟨rfl, rfl, Tournament.tournamentTrainDiag_nil p pc x⟩
  | custom x => cases h; exact ⟨rfl, rfl, Custom.baseline_diag p pc x⟩

/-- No index is read in `UNINIT`, so none can be meaningless. -/
theorem stop_of_mode_uninit {e : Engine} (h : e.mode = .uninit) (histW : Nat) (p : Widths) :
    e.stop histW p = none := by
  cases e with
  | uninit b => exact stop_uninit b histW p
  | static => cases h
  | gshare x => cases h
  | tournament x => cases h
  | custom x => cases h

theorem exec_predict_uninit {s : State} (h : s.mode = .uninit) (pc : Pc) :
    exec (.predict pc) s = .next (answered 0b1000#4 s) := by
  simp only [exec, execPredict, stop_of_mode_uninit h, (predict_eq_none_iff _ _ _).mpr h,
    protocolError_eq_answered]

theorem exec_train_uninit {s : State} (h : s.mode = .uninit) (pc : Pc) (o : Direction) :
    exec (.train pc o) s = .next (answered 0b1000#4 s) := by
  simp only [exec, execTrain, stop_of_mode_uninit h, (train_eq_none_iff _ _ _ _ _).mpr h,
    protocolError_eq_answered]

/-- Everything a `PREDICT` that answers can have done, by mode: it changes nothing but the response (R195). -/
theorem exec_predict_cases {pc : Pc} {s t : State} (h : exec (.predict pc) s = .next t) :
    (s.mode = .uninit ∧ t = answered 0b1000#4 s)
      ∨ (s.mode = .ready ∧ ∃ d, t = answered (predictionWord d) s) := by
  rcases execPredict_cases h with ⟨-, hnone, rfl⟩ | ⟨pr, -, hsome, rfl⟩
  · exact .inl ⟨(predict_eq_none_iff _ _ _).mp hnone, rfl⟩
  · obtain ⟨hready, hdiag⟩ := ready_of_predict hsome
    exact .inr ⟨hready, pr.dir, by rw [hdiag, respond_ok_eq_answered]⟩

/-- Everything a `TRAIN` that answers can have done, by mode. -/
theorem exec_train_cases {pc : Pc} {o : Direction} {s t : State} (h : exec (.train pc o) s = .next t) :
    (s.mode = .uninit ∧ t = answered 0b1000#4 s)
      ∨ (s.mode = .ready ∧ ∃ e, e.mode = .ready ∧ t = answered 0b0000#4 { s with engine := e }) := by
  rcases execTrain_cases h with ⟨-, hnone, rfl⟩ | ⟨e, diag, -, hsome, rfl⟩
  · exact .inl ⟨(train_eq_none_iff _ _ _ _ _).mp hnone, rfl⟩
  · obtain ⟨hready, he, rfl⟩ := ready_of_train hsome
    exact .inr ⟨hready, e, he, respond_done_eq_answered _⟩

theorem exec_teardown_ready {s : State} (h : s.mode = .ready) :
    exec .teardown s = .next (answered 0b0000#4 (release s)) := by
  rcases execTeardown_cases s with ⟨hu, -⟩ | ⟨-, ht⟩
  · exact absurd (hu.symm.trans h) nofun
  · exact ht.trans (congrArg Host.Outcome.next (respond_done_eq_answered _))

theorem exec_teardown_uninit {s : State} (h : s.mode = .uninit) :
    exec .teardown s = .next (answered 0b1000#4 s) := by
  rcases execTeardown_cases s with ⟨-, ht⟩ | ⟨hr, -⟩
  · exact ht
  · exact absurd (hr.symm.trans h) nofun

/-- A `PREDICT` reads neither the response port nor the diagnostic records, and overwrites both. -/
theorem exec_predict_answered (pc : Pc) (r : RspWord) (s : State) :
    exec (.predict pc) (answered r s) = exec (.predict pc) s := rfl

theorem exists_answered_of_predict {pc : Pc} {s t : State} (h : exec (.predict pc) s = .next t) :
    ∃ r, t = answered r s := by
  rcases exec_predict_cases h with ⟨-, ht⟩ | ⟨-, d, ht⟩
  · exact ⟨_, ht⟩
  · exact ⟨_, ht⟩

/-- Settles O32: the states after any `PREDICT`s differ in the response alone, which the next `PREDICT` does not
read. -/
theorem predictIsPure : Obligations.PredictIsPure := by
  intro pc s t h
  obtain ⟨r, ht⟩ := exists_answered_of_predict h
  refine ⟨⟨r, ht⟩, fun pc' u hu => ⟨t, ?_, rfl⟩⟩
  obtain ⟨q, rfl⟩ := exists_answered_of_predict hu
  rw [exec_predict_answered, ht, exec_predict_answered, h, ht]

/-- Settles O41, by mode; what is released is not said, the rest is the state `release` leaves. -/
theorem teardownReleases : Obligations.TeardownReleases := fun _ =>
  ⟨fun hr => ⟨_, exec_teardown_ready hr, rfl, rfl, rfl, rfl, rfl, rfl⟩, exec_teardown_uninit⟩

/-! ### INIT of a recognised strategy (R190 to R193) -/

/-- The strategy state an `INIT` creates (R50). -/
def newEngine (cfg : Config) (p : Widths) (st : Strategy) : Engine :=
  match st with
  | .static => .static
  | .gshare => .gshare gshareInit
  | .tournament => .tournament (tournamentInit cfg)
  | .custom => .custom (customInit cfg p)

/-- Whether the strategy asks for the cross-field check `L <= G` (R212). -/
def crossChecked (st : Strategy) : Bool :=
  match st with
  | .tournament => true
  | .static => false
  | .gshare => false
  | .custom => false

theorem exec_initOf (st : Strategy) (p : Widths) (s : State) :
    exec (initOf st p) s = .next (initialise (crossChecked st) (newEngine s.cfg p st) p s) := by
  cases st <;> rfl

theorem newEngine_mode (cfg : Config) (p : Widths) (st : Strategy) : (newEngine cfg p st).mode = .ready := by
  cases st <;> rfl

theorem initOf_eq_initTournament_iff (st : Strategy) (p : Widths) :
    initOf st p = .initTournament p ↔ crossChecked st = true := by
  cases st <;> simp [initOf, crossChecked]

theorem exists_initOf_of_mem {i : Instr} {p : Widths}
    (h : i ∈ [Instr.initStatic p, .initGshare p, .initTournament p, .initCustom p]) : ∃ st, i = initOf st p := by
  simp only [List.mem_cons, List.not_mem_nil, or_false] at h
  rcases h with rfl | rfl | rfl | rfl
  · exact ⟨.static, rfl⟩
  · exact ⟨.gshare, rfl⟩
  · exact ⟨.tournament, rfl⟩
  · exact ⟨.custom, rfl⟩

/-- Settles O22: Static reads no array, so its commands neither stop nor change anything. -/
theorem staticStrategy : Obligations.StaticStrategy := by
  refine ⟨fun p s hlegal => ?_, fun p s hillegal => ?_, fun pc s he => ?_, fun pc o s he => ?_⟩
  · exact congrArg Host.Outcome.next (initialise_eq_answered (cross := false) .static hlegal nofun)
  · have hfail := initialise_invalid (cross := false) .static fun h => hillegal h.1
    exact ⟨_, congrArg Host.Outcome.next hfail, failedInit_configurationError s⟩
  · have hpred : s.engine.predict s.widths pc = some (staticPredict pc) := by rw [he]; rfl
    exact exec_predict_of_prediction (by rw [he]; exact stop_static _ _) hpred rfl
  · have htrain : s.engine.train s.cfg.histW s.widths pc o = some (s.engine, []) := by rw [he]; rfl
    exact exec_train_of_trained (by rw [he]; exact stop_static _ _) htrain

/-! ### The mode table (R200) -/

theorem initialise_valid_answer {cross : Bool} {e : Engine} {p : Widths} {s : State} (he : e.mode = .ready)
    (hlegal : widthsLegal s.cfg.maxBits p) (hcross : cross = true → p.l.toNat ≤ p.g.toNat) :
    (initialise cross e p s).mode = .ready ∧ (initialise cross e p s).rsp = some 0b0000#4 := by
  rw [initialise_eq_answered e hlegal hcross]
  exact ⟨he, rfl⟩

theorem initialise_invalid_answer {cross : Bool} (e : Engine) {p : Widths} {s : State}
    (h : ¬ (widthsLegal s.cfg.maxBits p ∧ (cross = true → p.l.toNat ≤ p.g.toNat))) :
    (initialise cross e p s).mode = .uninit ∧ (initialise cross e p s).rsp = some 0b0100#4 := by
  rw [initialise_invalid e h]
  exact ⟨(failedInit_configurationError s).mode, (failedInit_configurationError s).rsp⟩

/-- The `INIT` row of the table, for a recognised strategy. -/
theorem initOf_transition {st : Strategy} {p : Widths} {s t : State} (h : exec (initOf st p) s = .next t) :
    if widthsLegal s.cfg.maxBits p ∧ (initOf st p = .initTournament p → p.l.toNat ≤ p.g.toNat)
    then t.mode = .ready ∧ t.rsp = some 0b0000#4 else t.mode = .uninit ∧ t.rsp = some 0b0100#4 := by
  obtain rfl := Host.Outcome.next.inj ((exec_initOf st p s).symm.trans h)
  simp only [initOf_eq_initTournament_iff]
  split
  next hvalid => exact initialise_valid_answer (newEngine_mode s.cfg p st) hvalid.1 hvalid.2
  next hinvalid => exact initialise_invalid_answer _ hinvalid

theorem predictionWord_cases (d : Direction) : predictionWord d = 0b0000#4 ∨ predictionWord d = 0b0001#4 := by
  cases d
  · exact .inl rfl
  · exact .inr rfl

theorem predict_transition {pc : Pc} {s t : State} (h : exec (.predict pc) s = .next t) :
    t.mode = s.mode ∧ (s.mode = .ready → t.rsp = some 0b0000#4 ∨ t.rsp = some 0b0001#4)
      ∧ (s.mode = .uninit → t.rsp = some 0b1000#4) := by
  rcases exec_predict_cases h with ⟨hu, rfl⟩ | ⟨hr, d, rfl⟩
  · simp [hu]
  · simp [hr, predictionWord_cases d]

theorem train_transition {pc : Pc} {o : Direction} {s t : State} (h : exec (.train pc o) s = .next t) :
    t.mode = s.mode ∧ (s.mode = .ready → t.rsp = some 0b0000#4) ∧ (s.mode = .uninit → t.rsp = some 0b1000#4) := by
  rcases exec_train_cases h with ⟨hu, rfl⟩ | ⟨hr, e, he, rfl⟩
  · simp [hu]
  · exact ⟨he.trans hr.symm, fun _ => rfl, fun hu => absurd (hr.symm.trans hu) nofun⟩

theorem teardown_transition {s t : State} (h : exec .teardown s = .next t) :
    t.mode = .uninit ∧ (s.mode = .ready → t.rsp = some 0b0000#4) ∧ (s.mode = .uninit → t.rsp = some 0b1000#4) := by
  cases hmode : s.mode with
  | uninit =>
    obtain rfl := Host.Outcome.next.inj ((exec_teardown_uninit hmode).symm.trans h)
    exact ⟨hmode, nofun, fun _ => rfl⟩
  | ready =>
    obtain rfl := Host.Outcome.next.inj ((exec_teardown_ready hmode).symm.trans h)
    exact ⟨rfl, fun _ => rfl, nofun⟩

/-- A step on an accepted word that decodes to no command (R215). -/
theorem step_of_illegal {s : State} {w : CmdWord} {rest : List HostInput} {e : DecodeError}
    (hin : s.inputs = .command w :: rest) (hready : s.cmdReady = true) (hdecode : decode w = .error e) :
    step s = .next (answered 0b1100#4 (accept rest s)) := by
  simp only [step, fetch, hin, hready, if_true, hdecode, illegalCommand_eq_answered]

/-- Settles O42, a row of the table at a time. -/
theorem modeTransitionTable : Obligations.ModeTransitionTable := by
  intro p st pc o s t
  refine ⟨fun i hi h => ?_, fun _ h => ?_, predict_transition, train_transition, teardown_transition,
    fun w rest e hin hready hdecode h => ?_⟩
  · obtain ⟨strategy, rfl⟩ := exists_initOf_of_mem hi
    exact initOf_transition h
  · obtain rfl := Host.Outcome.next.inj h
    exact ⟨rfl, rfl⟩
  · obtain rfl := Host.Outcome.next.inj ((step_of_illegal hin hready hdecode).symm.trans h)
    exact ⟨rfl, rfl⟩

end Sys2Proof.Proofs.Dispatcher

/-! Machines no command can tell apart (R51, R198, R201): that commands, steps and runs keep them so with the same
answers, that an `INIT` makes any two machines of one configuration such machines, and the settled statements O28 and
O52. -/

namespace Sys2Proof.Proofs.Lockstep

open Sys2Proof.Machine Sys2Proof.Safety Sys2Proof.Laws Sys2Proof.Proofs.Dispatcher

/-- Two states no command can tell apart that also present the same answer. -/
structure Alike (a b : State) : Prop extends Indistinguishable a b where
  rsp : a.rsp = b.rsp
  diagRecords : a.diagRecords = b.diagRecords

/-- Two commands or steps that both answer, alike, or both stop for the same reason. -/
def OutcomesAlike (x y : Host.Outcome State Fault Refusal) : Prop :=
  (∃ a b, x = .next a ∧ y = .next b ∧ Alike a b) ∨ ∃ f, x = .fault f ∧ y = .fault f

theorem outcomesAlike_next {a b : State} (h : Alike a b) : OutcomesAlike (.next a) (.next b) :=
  .inl ⟨a, b, rfl, rfl, h⟩

theorem alike_of_next {a b : State} (h : OutcomesAlike (.next a) (.next b)) : Alike a b := by
  rcases h with ⟨a', b', ha, hb, halike⟩ | ⟨f, ha, -⟩
  · cases ha; cases hb; exact halike
  · cases ha

/-- What a machine holds while `READY` is shared by every machine no command tells apart from it. -/
theorem engine_widths_of_ready {a b : State} (h : Indistinguishable a b) (hr : a.mode = .ready) :
    a.engine = b.engine ∧ a.widths = b.widths := by
  rcases h.engine with ⟨hu, -⟩ | heq
  · exact absurd (hu.symm.trans hr) nofun
  · exact heq

/-! ### The operations a command is made of -/

/-- An answer overwrites the channel's ports, so `cmd_ready` need not agree before it. -/
theorem respond_alike (st : Status) (diag : List DiagRecord) (d : Direction) {a b : State} (hcfg : a.cfg = b.cfg)
    (hin : a.inputs = b.inputs)
    (heng : (a.mode = .uninit ∧ b.mode = .uninit) ∨ (a.engine = b.engine ∧ a.widths = b.widths)) :
    Alike (respond st diag d a) (respond st diag d b) :=
  ⟨⟨hcfg, hin, rfl, heng⟩, rfl, rfl⟩

/-- A failed `INIT` forgets everything but the parameters and the channel (R192). -/
theorem configurationError_alike {a b : State} (hcfg : a.cfg = b.cfg) (hin : a.inputs = b.inputs) :
    Alike (raise .configurationError a) (raise .configurationError b) :=
  respond_alike _ _ _ hcfg hin (.inl ⟨rfl, rfl⟩)

/-- `INIT` reads the parameters alone and writes everything else (R190, R198). -/
theorem initialise_alike (cross : Bool) {e e' : Engine} (he : e = e') (p : Widths) {a b : State}
    (hcfg : a.cfg = b.cfg) (hin : a.inputs = b.inputs) :
    Alike (initialise cross e p a) (initialise cross e' p b) := by
  subst he
  rcases initialise_cases cross e p a with ⟨hlegal, hcross, ha⟩ | ⟨hinvalid, ha⟩
  · rw [ha, initialise_valid e (hcfg ▸ hlegal) hcross]
    exact respond_alike _ _ _ hcfg hin (.inr ⟨rfl, rfl⟩)
  · rw [ha, initialise_invalid e (hcfg ▸ hinvalid)]
    exact configurationError_alike hcfg hin

/-! ### Every command -/

/-- The rows of the family `INIT` (R87). -/
def isInit (i : Instr) : Bool :=
  match i with
  | .initStatic _ => true
  | .initGshare _ => true
  | .initTournament _ => true
  | .initCustom _ => true
  | .initUnrecognised _ _ => true
  | .predict _ => false
  | .train _ _ => false
  | .teardown => false

/-- An `INIT` makes alike any two machines with the same parameters and the same commands to come, whatever they were
before. -/
theorem exec_init_alike {i : Instr} (hi : isInit i = true) {a b : State} (hcfg : a.cfg = b.cfg)
    (hin : a.inputs = b.inputs) : OutcomesAlike (exec i a) (exec i b) := by
  cases i with
  | initStatic p => exact outcomesAlike_next (initialise_alike _ rfl p hcfg hin)
  | initGshare p => exact outcomesAlike_next (initialise_alike _ rfl p hcfg hin)
  | initTournament p => exact outcomesAlike_next (initialise_alike _ (by rw [hcfg]) p hcfg hin)
  | initCustom p => exact outcomesAlike_next (initialise_alike _ (by rw [hcfg]) p hcfg hin)
  | initUnrecognised st p => exact outcomesAlike_next (configurationError_alike hcfg hin)
  | predict pc => cases hi
  | train pc o => cases hi
  | teardown => cases hi

theorem protocolError_alike {a b : State} (h : Indistinguishable a b) :
    Alike (answered 0b1000#4 a) (answered 0b1000#4 b) :=
  respond_alike .protocolError [] .notTaken h.cfg h.inputs h.engine

/-- A `PREDICT` reads the parameters and, where there is one, the strategy state with its widths. -/
theorem exec_predict_alike {a b : State} (h : Indistinguishable a b) (pc : Pc) :
    OutcomesAlike (exec (.predict pc) a) (exec (.predict pc) b) := by
  rcases h.engine with ⟨ha, hb⟩ | ⟨heng, hwid⟩
  · rw [exec_predict_uninit ha, exec_predict_uninit hb]
    exact outcomesAlike_next (protocolError_alike h)
  · simp only [exec, execPredict, h.cfg, heng, hwid]
    split
    next f _ => exact .inr ⟨f, rfl, rfl⟩
    next =>
      split
      next => exact outcomesAlike_next (protocolError_alike h)
      next => exact outcomesAlike_next (respond_alike _ _ _ h.cfg h.inputs h.engine)

/-- A `TRAIN` reads what a `PREDICT` reads, and writes the strategy state alone. -/
theorem exec_train_alike {a b : State} (h : Indistinguishable a b) (pc : Pc) (o : Direction) :
    OutcomesAlike (exec (.train pc o) a) (exec (.train pc o) b) := by
  rcases h.engine with ⟨ha, hb⟩ | ⟨heng, hwid⟩
  · rw [exec_train_uninit ha, exec_train_uninit hb]
    exact outcomesAlike_next (protocolError_alike h)
  · simp only [exec, execTrain, h.cfg, heng, hwid]
    split
    next f _ => exact .inr ⟨f, rfl, rfl⟩
    next =>
      split
      next => exact outcomesAlike_next (protocolError_alike h)
      next => exact outcomesAlike_next (respond_alike _ _ _ rfl h.inputs (.inr ⟨rfl, rfl⟩))

theorem mode_eq {a b : State} (h : Indistinguishable a b) : a.mode = b.mode := by
  rcases h.engine with ⟨ha, hb⟩ | ⟨heng, -⟩
  · rw [ha, hb]
  · exact congrArg Engine.mode heng

theorem exec_teardown_alike {a b : State} (h : Indistinguishable a b) :
    OutcomesAlike (exec .teardown a) (exec .teardown b) := by
  have hmode := mode_eq h
  cases ha : a.mode with
  | uninit =>
    rw [exec_teardown_uninit ha, exec_teardown_uninit (hmode.symm.trans ha)]
    exact outcomesAlike_next (protocolError_alike h)
  | ready =>
    rw [exec_teardown_ready ha, exec_teardown_ready (hmode.symm.trans ha)]
    exact outcomesAlike_next ⟨⟨h.cfg, h.inputs, rfl, .inl ⟨rfl, rfl⟩⟩, rfl, rfl⟩

theorem exec_alike (i : Instr) {a b : State} (h : Indistinguishable a b) :
    OutcomesAlike (exec i a) (exec i b) := by
  cases i with
  | predict pc => exact exec_predict_alike h pc
  | train pc o => exact exec_train_alike h pc o
  | teardown => exact exec_teardown_alike h
  | initStatic p => exact exec_init_alike rfl h.cfg h.inputs
  | initGshare p => exact exec_init_alike rfl h.cfg h.inputs
  | initTournament p => exact exec_init_alike rfl h.cfg h.inputs
  | initCustom p => exact exec_init_alike rfl h.cfg h.inputs
  | initUnrecognised st p => exact exec_init_alike rfl h.cfg h.inputs

/-! ### Steps and runs -/

theorem accept_indistinguishable {a b : State} (h : Indistinguishable a b) (rest : List HostInput) :
    Indistinguishable (accept rest a) (accept rest b) :=
  ⟨h.cfg, rfl, rfl, h.engine⟩

theorem idle_alike {a b : State} (h : Indistinguishable a b) : Alike (idle a) (idle b) :=
  ⟨⟨h.cfg, h.inputs, rfl, h.engine⟩, rfl, rfl⟩

theorem hardwareReset_alike {a b : State} (hcfg : a.cfg = b.cfg) (hin : a.inputs = b.inputs) :
    Alike (hardwareReset a) (hardwareReset b) :=
  ⟨⟨hcfg, hin, rfl, .inl ⟨rfl, rfl⟩⟩, rfl, rfl⟩

/-- A step of two machines no command can tell apart gives the same answer, and two such machines. -/
theorem step_alike {a b : State} (h : Indistinguishable a b) : OutcomesAlike (step a) (step b) := by
  simp only [step, fetch, h.inputs, h.cmdReady]
  cases b.inputs with
  | nil => exact outcomesAlike_next (idle_alike h)
  | cons x rest =>
    cases x with
    | hardwareReset inFlight => exact outcomesAlike_next (hardwareReset_alike h.cfg rfl)
    | command w =>
      have haccept := accept_indistinguishable h rest
      cases b.cmdReady with
      | false => exact outcomesAlike_next (idle_alike h)
      | true =>
        cases hd : decode w with
        | ok i => simpa [hd] using exec_alike i haccept
        | error e =>
          simpa [hd] using outcomesAlike_next
            (respond_alike .illegalCommand [] .notTaken haccept.cfg haccept.inputs haccept.engine)

theorem observe_of_next (n : Nat) {s t : State} (h : step s = .next t) :
    observe (n + 1) s = t.rsp :: observe n t := by
  simp only [observe, h]

theorem observe_of_fault (n : Nat) {s : State} {f : Fault} (h : step s = .fault f) : observe (n + 1) s = [] := by
  simp only [observe, h]

theorem observe_eq (n : Nat) {a b : State} (h : Indistinguishable a b) : observe n a = observe n b := by
  induction n generalizing a b with
  | zero => rfl
  | succ n ih =>
    rcases step_alike h with ⟨a', b', ha, hb, halike⟩ | ⟨f, ha, hb⟩
    · rw [observe_of_next n ha, observe_of_next n hb, halike.rsp, ih halike.toIndistinguishable]
    · rw [observe_of_fault n ha, observe_of_fault n hb]

theorem run_of_next (n : Nat) {s t : State} (h : step s = .next t) :
    Host.Core.run Sys2Proof.core (n + 1) s = Host.Core.run Sys2Proof.core n t := by
  have hcore : Sys2Proof.core.step s = .next t := h
  simp only [Host.Core.run, hcore]

theorem run_of_fault (n : Nat) {s : State} {f : Fault} (h : step s = .fault f) :
    Host.Core.run Sys2Proof.core (n + 1) s = .fault f := by
  have hcore : Sys2Proof.core.step s = .fault f := h
  simp only [Host.Core.run, hcore]

theorem run_indistinguishable (n : Nat) {a b u : State} (h : Indistinguishable a b)
    (hrun : Host.Core.run Sys2Proof.core n a = .next u) :
    ∃ v, Host.Core.run Sys2Proof.core n b = .next v ∧ Indistinguishable u v := by
  induction n generalizing a b with
  | zero => cases hrun; exact ⟨b, rfl, h⟩
  | succ n ih =>
    rcases step_alike h with ⟨a', b', ha, hb, halike⟩ | ⟨f, ha, -⟩
    · rw [run_of_next n ha] at hrun
      rw [run_of_next n hb]
      exact ih halike.toIndistinguishable hrun
    · rw [run_of_fault n ha] at hrun
      cases hrun

/-! ### What an INIT forgets (R198, R201) -/

theorem isInit_of_mem {i : Instr} {p : Widths} {st : BitVec 3}
    (h : i ∈ [Instr.initStatic p, .initGshare p, .initTournament p, .initCustom p, .initUnrecognised st p]) :
    isInit i = true := by
  simp only [List.mem_cons, List.not_mem_nil, or_false] at h
  rcases h with rfl | rfl | rfl | rfl | rfl <;> rfl

/-- An `INIT` that answers in two machines with the same parameters and the same commands to come. -/
theorem alike_of_init {i : Instr} (hi : isInit i = true) {a b a' b' : State} (hcfg : a.cfg = b.cfg)
    (hin : a.inputs = b.inputs) (ha : exec i a = .next a') (hb : exec i b = .next b') : Alike a' b' := by
  have h := exec_init_alike hi hcfg hin
  rw [ha, hb] at h
  exact alike_of_next h

/-- Settles O28: the `TEARDOWN` keeps the parameters and the channel, and the `INIT` forgets the rest. -/
theorem reinitialisationIsTeardownThenInit : Obligations.ReinitialisationIsTeardownThenInit := by
  intro i p st s t u v hi _ hready ht hu hv
  obtain ⟨u', hu', -, -, -, -, hcfg, hin⟩ := (teardownReleases s).1 hready
  obtain rfl := Host.Outcome.next.inj (hu'.symm.trans hu)
  have h : Alike v t := alike_of_init (isInit_of_mem hi) hcfg hin hv ht
  have hind := h.toIndistinguishable
  exact ⟨h.rsp, hind, fun htready => engine_widths_of_ready hind ((mode_eq hind).trans htready)⟩

/-- Settles O52: right after the `INIT` the two machines are alike, and every step keeps them so. -/
theorem nothingSurvivesInit : Obligations.NothingSurvivesInit := by
  intro i p n a b a' b' hi hcfg hin ha hb hready
  have hinit : isInit i = true := isInit_of_mem (st := 4#3) (List.mem_append_left [_] hi)
  have h := (alike_of_init hinit hcfg hin ha hb).toIndistinguishable
  obtain ⟨heng, hwid⟩ := engine_widths_of_ready h hready
  exact ⟨heng, hwid, observe_eq n h, fun u hrun => run_indistinguishable n h hrun⟩

end Sys2Proof.Proofs.Lockstep

/-! Exceptions (spec/60_exceptions.md): which words and commands each fault answers, and the settled statements O18, O26,
O27 and O33. -/

namespace Sys2Proof.Proofs.Exceptions

open Sys2Proof.Machine Sys2Proof.Safety Sys2Proof.Laws Sys2Proof.Proofs.Dispatcher
open Sys2Proof.Proofs.Encoding (initOf selects_predictOutcomeBit_iff selects_teardownReservedBits_iff)

/-! ### ProtocolError (R216) -/

/-- Settles O33: each of the three looks at `MODE` before anything else. -/
theorem uninitIsProtocolError : Obligations.UninitIsProtocolError := by
  intro s pc o hmode i hi
  simp only [List.mem_cons, List.not_mem_nil, or_false] at hi
  rcases hi with rfl | rfl | rfl
  · exact exec_predict_uninit hmode pc
  · exact exec_train_uninit hmode pc o
  · exact exec_teardown_uninit hmode

/-! ### ConfigurationError (R211, R212) -/

/-- An unrecognised strategy is refused before the widths are looked at (R211). -/
theorem exec_initUnrecognised (strat : BitVec 3) (p : Widths) (s : State) :
    exec (.initUnrecognised strat p) s = .next (raise .configurationError s) := rfl

/-- Settles O27: the code and the widths play no part in the answer. -/
theorem unrecognisedStrategyFails : Obligations.UnrecognisedStrategyFails := fun strat p s _ =>
  ⟨_, exec_initUnrecognised strat p s, failedInit_configurationError s⟩

theorem widthsLegal_iff_forall (maxBits : Nat) (p : Widths) :
    widthsLegal maxBits p ↔ ∀ v ∈ [p.g, p.l, p.c, p.k, p.t], widthLegal maxBits v := by
  simp [widthsLegal]

/-- A width that is 0 or above `MAX_BITS` is enough to refuse all five (R212). -/
theorem not_widthsLegal_of_outOfRange {maxBits : Nat} {p : Widths}
    (h : ∃ v ∈ [p.g, p.l, p.c, p.k, p.t], v.toNat = 0 ∨ maxBits < v.toNat) : ¬ widthsLegal maxBits p := by
  obtain ⟨v, hv, hout⟩ := h
  intro hlegal
  obtain ⟨hpos, hmax⟩ := (widthsLegal_iff_forall maxBits p).mp hlegal v hv
  omega

/-- An `INIT` of a recognised strategy, one of whose checks fails (R192, R212). -/
theorem exec_initOf_fails {st : Strategy} {p : Widths} {s : State}
    (h : ¬ (widthsLegal s.cfg.maxBits p ∧ (crossChecked st = true → p.l.toNat ≤ p.g.toNat))) :
    ∃ t, exec (initOf st p) s = .next t ∧ FailedInit s t := by
  rw [exec_initOf, initialise_invalid _ h]
  exact ⟨_, rfl, failedInit_configurationError s⟩

/-- Settles O26: the first clause fails the range check, the second the cross-field check of Tournament. -/
theorem outOfRangeWidthsFail : Obligations.OutOfRangeWidthsFail := by
  intro p s
  refine ⟨fun hout i hi => ?_, fun hgl => ?_⟩
  · obtain ⟨st, rfl⟩ := exists_initOf_of_mem hi
    exact exec_initOf_fails fun hvalid => not_widthsLegal_of_outOfRange hout hvalid.1
  · exact exec_initOf_fails (st := .tournament) fun hvalid => absurd (hvalid.2 rfl) (Nat.not_le.mpr hgl)

/-! ### IllegalCommand (R215) -/

/-- The two classes of illegal word are the words the decoder rejects (R91, R93). -/
theorem illegalWord_iff (w : CmdWord) :
    (w &&& 0x700000000#35 = 0x300000000#35 ∨ (w &&& 0x600000000#35 = 0x600000000#35 ∧ w ≠ 0x600000000#35))
      ↔ ∃ e, decode w = .error e := by
  rw [selects_predictOutcomeBit_iff, selects_teardownReservedBits_iff]
  constructor
  · rintro (h | h)
    · exact ⟨_, h⟩
    · exact ⟨_, h⟩
  · rintro ⟨e, h⟩
    cases e with
    | predictOutcomeBit => exact .inl h
    | teardownReservedBits => exact .inr h

theorem answered_rsp_ne_illegal {r : RspWord} (hr : r ≠ 0b1100#4) (s : State) : (answered r s).rsp ≠ some 0b1100#4 :=
  fun h => hr (Option.some.inj h)

theorem initOf_rsp_ne_illegal {st : Strategy} {p : Widths} {s t : State} (h : exec (initOf st p) s = .next t) :
    t.rsp ≠ some 0b1100#4 := by
  have hrow := initOf_transition h
  split at hrow
  · rw [hrow.2]; decide
  · rw [hrow.2]; decide

theorem predict_rsp_ne_illegal {pc : Pc} {s t : State} (h : exec (.predict pc) s = .next t) :
    t.rsp ≠ some 0b1100#4 := by
  rcases exec_predict_cases h with ⟨-, rfl⟩ | ⟨-, d, rfl⟩
  · exact answered_rsp_ne_illegal (by decide) s
  · exact answered_rsp_ne_illegal (by cases d <;> decide) s

theorem train_rsp_ne_illegal {pc : Pc} {o : Direction} {s t : State} (h : exec (.train pc o) s = .next t) :
    t.rsp ≠ some 0b1100#4 := by
  rcases exec_train_cases h with ⟨-, rfl⟩ | ⟨-, e, -, rfl⟩
  · exact answered_rsp_ne_illegal (by decide) _
  · exact answered_rsp_ne_illegal (by decide) _

theorem teardown_rsp_ne_illegal {s t : State} (h : exec .teardown s = .next t) : t.rsp ≠ some 0b1100#4 := by
  obtain ⟨-, hready, huninit⟩ := teardown_transition h
  cases hmode : s.mode with
  | uninit => rw [huninit hmode]; decide
  | ready => rw [hready hmode]; decide

/-- No command that decodes is answered `ILLEGAL_COMMAND` (R88, R215). -/
theorem exec_rsp_ne_illegal {i : Instr} {s t : State} (h : exec i s = .next t) : t.rsp ≠ some 0b1100#4 := by
  cases i with
  | initStatic p => exact initOf_rsp_ne_illegal (st := .static) h
  | initGshare p => exact initOf_rsp_ne_illegal (st := .gshare) h
  | initTournament p => exact initOf_rsp_ne_illegal (st := .tournament) h
  | initCustom p => exact initOf_rsp_ne_illegal (st := .custom) h
  | initUnrecognised strat p =>
    obtain rfl := Host.Outcome.next.inj ((exec_initUnrecognised strat p s).symm.trans h)
    rw [(failedInit_configurationError s).rsp]
    decide
  | predict pc => exact predict_rsp_ne_illegal h
  | train pc o => exact train_rsp_ne_illegal h
  | teardown => exact teardown_rsp_ne_illegal h

/-- A step that answers `ILLEGAL_COMMAND` took in a word the decoder rejects: every other step leaves no response, or
that of a command. -/
theorem illegal_of_step_rsp {s t : State} (h : step s = .next t) (hrsp : t.rsp = some 0b1100#4) :
    ∃ w rest e, s.inputs = .command w :: rest ∧ decode w = .error e := by
  rcases step_cases h with ⟨rfl, -⟩ | ⟨f, rest, -, rfl⟩ | ⟨w, rest, i, -, -, -, hexec⟩ | ⟨w, rest, e, hin, -, hdecode, -⟩
  · cases hrsp
  · cases hrsp
  · exact absurd hrsp (exec_rsp_ne_illegal hexec)
  · exact ⟨w, rest, e, hin, hdecode⟩

/-- Settles O18: both classes are decoding errors, and only a decoding error is answered so. -/
theorem illegalWordsAreAnswered : Obligations.IllegalWordsAreAnswered := by
  intro s w rest hin hready
  rw [illegalWord_iff]
  refine ⟨fun ⟨e, hdecode⟩ => step_of_illegal hin hready hdecode, fun t hstep hrsp => ?_⟩
  obtain ⟨w', rest', e, hin', hdecode⟩ := illegal_of_step_rsp hstep hrsp
  obtain ⟨rfl, -⟩ : w = w' ∧ rest = rest' := by simpa using hin.symm.trans hin'
  exact ⟨e, hdecode⟩

end Sys2Proof.Proofs.Exceptions

/-! Several engines side by side (spec/60_exceptions.md R232): what a step of one does to the list of all of them, and
the settled statement O55. -/

namespace Sys2Proof.Proofs.Instances

open Sys2Proof.Machine
open Sys2Proof.Proofs.Lockstep (run_of_next)

theorem stepInstance_nil (n : Nat) : stepInstance n [] = .next [] := by
  simp only [stepInstance]

/-- Everything a step of engine `n` that answers can have done: nothing, where no engine has that number, or a step of
that engine alone. -/
theorem stepInstance_cases {n : Nat} {engines engines' : List State} (h : stepInstance n engines = .next engines') :
    (engines[n]? = none ∧ engines' = engines)
      ∨ ∃ s s', engines[n]? = some s ∧ step s = .next s' ∧ engines' = engines.set n s' := by
  induction engines generalizing n engines' with
  | nil =>
    obtain rfl := Host.Outcome.next.inj ((stepInstance_nil n).symm.trans h)
    exact .inl ⟨rfl, rfl⟩
  | cons s rest ih =>
    cases n with
    | zero =>
      simp only [stepInstance] at h
      split at h
      next s' hstep => cases h; exact .inr ⟨s, s', rfl, hstep, rfl⟩
      all_goals cases h
    | succ m =>
      simp only [stepInstance] at h
      split at h
      next rest' hrest =>
        cases h
        rcases ih hrest with ⟨hnone, rfl⟩ | ⟨u, u', hu, hstep, rfl⟩
        · exact .inl ⟨hnone, rfl⟩
        · exact .inr ⟨u, u', hu, hstep, rfl⟩
      all_goals cases h

theorem length_stepInstance {n : Nat} {engines engines' : List State} (h : stepInstance n engines = .next engines') :
    engines'.length = engines.length := by
  rcases stepInstance_cases h with ⟨-, rfl⟩ | ⟨s, s', -, -, rfl⟩
  · rfl
  · exact List.length_set

/-- The engine named takes one step of its own. -/
theorem getElem?_stepInstance_same {n : Nat} {engines engines' : List State} {s : State}
    (h : stepInstance n engines = .next engines') (hs : engines[n]? = some s) :
    ∃ s', step s = .next s' ∧ engines'[n]? = some s' := by
  rcases stepInstance_cases h with ⟨hnone, -⟩ | ⟨u, u', hu, hstep, rfl⟩
  · cases hnone.symm.trans hs
  · obtain rfl := Option.some.inj (hu.symm.trans hs)
    exact ⟨u', hstep, by simp [(List.getElem?_eq_some_iff.mp hs).1]⟩

/-- Every other engine is untouched. -/
theorem getElem?_stepInstance_other {n k : Nat} {engines engines' : List State}
    (h : stepInstance n engines = .next engines') (hk : n ≠ k) : engines'[k]? = engines[k]? := by
  rcases stepInstance_cases h with ⟨-, rfl⟩ | ⟨s, s', -, -, rfl⟩
  · rfl
  · exact List.getElem?_set_ne hk

/-- An order that completes completes its first step and then the rest. -/
theorem stepInstances_cons {n : Nat} {rest : List Nat} {engines engines' : List State}
    (h : stepInstances (n :: rest) engines = .next engines') :
    ∃ mid, stepInstance n engines = .next mid ∧ stepInstances rest mid = .next engines' := by
  simp only [stepInstances] at h
  split at h
  next mid hmid => exact ⟨mid, hmid, h⟩
  all_goals cases h

theorem length_stepInstances {order : List Nat} {engines engines' : List State}
    (h : stepInstances order engines = .next engines') : engines'.length = engines.length := by
  induction order generalizing engines with
  | nil => cases h; rfl
  | cons n rest ih =>
    obtain ⟨mid, hmid, hrest⟩ := stepInstances_cons h
    exact (ih hrest).trans (length_stepInstance hmid)

/-- Engine `k` ends where it ends alone, after as many steps as the order names it. -/
theorem run_of_stepInstances {order : List Nat} {engines engines' : List State} {k : Nat} {s s' : State}
    (h : stepInstances order engines = .next engines') (hs : engines[k]? = some s) (hs' : engines'[k]? = some s') :
    Host.Core.run Sys2Proof.core (order.count k) s = .next s' := by
  induction order generalizing engines s with
  | nil =>
    cases h
    obtain rfl := Option.some.inj (hs.symm.trans hs')
    rfl
  | cons n rest ih =>
    obtain ⟨mid, hmid, hrest⟩ := stepInstances_cons h
    by_cases hk : n = k
    · subst hk
      obtain ⟨u, hstep, hu⟩ := getElem?_stepInstance_same hmid hs
      rw [List.count_cons_self, run_of_next _ hstep]
      exact ih hrest hu
    · rw [List.count_cons_of_ne hk]
      exact ih hrest ((getElem?_stepInstance_other hmid hk).trans hs)

/-- Settles O55, by induction on the order. -/
theorem instancesAreIndependent : Obligations.InstancesAreIndependent := fun _ _ _ h =>
  ⟨length_stepInstances h, fun _ _ _ => run_of_stepInstances h⟩

end Sys2Proof.Proofs.Instances

/-! The round trip of encoding (spec/30_encoding.md sections 2, 6 and 8): reading a placed field back, putting adjacent
fields together again, and the settled statements O12, O13 and O15. -/

namespace Sys2Proof.Proofs.RoundTrip

open Sys2Proof.Machine
open Sys2Proof.Proofs.Encoding (initOf getElem_placeField decode_cases eq_teardownWord_iff)

/-! ### Reading a field of a word put together from fields -/

theorem getLsbD_placeField {n : Nat} (lo i : Nat) (v : BitVec n) :
    (placeField lo v).getLsbD i = (decide (i < 35) && (decide (lo ≤ i) && v.getLsbD (i - lo))) := by
  by_cases hi : i < 35
  · rw [BitVec.getLsbD_eq_getElem hi, getElem_placeField, decide_eq_true hi, Bool.true_and]
  · simp [hi, Nat.le_of_not_lt hi]

theorem extractLsb'_placeField_same {lo n : Nat} (h : lo + n ≤ 35) (v : BitVec n) :
    (placeField lo v).extractLsb' lo n = v := by
  ext i hi
  have hlt : lo + i < 35 := by omega
  rw [BitVec.getElem_extractLsb', getLsbD_placeField]
  simp [hlt, hi]

/-- A field shows none of the bits placed outside it. -/
theorem extractLsb'_placeField_disjoint {lo m pos n : Nat} (h : lo + m ≤ pos ∨ pos + n ≤ lo) (v : BitVec m) :
    (placeField lo v).extractLsb' pos n = 0#n := by
  ext i hi
  by_cases hlo : lo ≤ pos + i
  · have hout : m ≤ pos + i - lo := by omega
    simp [getLsbD_placeField, hout]
  · simp [getLsbD_placeField, hlo]

/-- What every field of a format I word reads (R82, R83). -/
theorem fields_encodeInit (strat : BitVec 3) (p : Widths) :
    (encodeInit strat p).extractLsb' 33 2 = 0#2 ∧ (encodeInit strat p).extractLsb' 30 3 = strat
      ∧ decodeWidths (encodeInit strat p) = p := by
  refine ⟨?_, ?_, ?_⟩
  all_goals
    simp (disch := omega) [encodeInit, decodeWidths, BitVec.extractLsb'_or, extractLsb'_placeField_same,
      extractLsb'_placeField_disjoint]

/-- What every field of a `PREDICT` word reads (R84). -/
theorem fields_encode_predict (pc : Pc) :
    (encode (.predict pc)).extractLsb' 33 2 = 1#2 ∧ (encode (.predict pc)).extractLsb' 32 1 = 0#1
      ∧ (encode (.predict pc)).extractLsb' 0 32 = pc := by
  refine ⟨?_, ?_, ?_⟩
  all_goals
    simp (disch := omega) [encode, BitVec.extractLsb'_or, extractLsb'_placeField_same,
      extractLsb'_placeField_disjoint]

/-- What every field of a `TRAIN` word reads (R84). -/
theorem fields_encode_train (pc : Pc) (o : Direction) :
    (encode (.train pc o)).extractLsb' 33 2 = 2#2 ∧ (encode (.train pc o)).extractLsb' 32 1 = o.bit
      ∧ (encode (.train pc o)).extractLsb' 0 32 = pc := by
  refine ⟨?_, ?_, ?_⟩
  all_goals
    simp (disch := omega) [encode, BitVec.extractLsb'_or, extractLsb'_placeField_same,
      extractLsb'_placeField_disjoint]

/-! ### Decoding an encoding -/

theorem ofBit_bit (o : Direction) : Direction.ofBit o.bit = o := by
  cases o <;> rfl

theorem decode_encodeInit (strat : BitVec 3) (p : Widths) :
    decode (encodeInit strat p) = .ok (decodeInit strat p) := by
  obtain ⟨hop, hstrat, hwidths⟩ := fields_encodeInit strat p
  simp only [decode, hop, hstrat, hwidths, if_true]

theorem decodeInit_code (st : Strategy) (p : Widths) : decodeInit st.code p = initOf st p := by
  cases st <;> rfl

/-- A code of 4 or more is none of the four recognised ones (R85). -/
theorem decodeInit_of_four_le {strat : BitVec 3} (h : 4 ≤ strat.toNat) (p : Widths) :
    decodeInit strat p = .initUnrecognised strat p := by
  have hne (st : Strategy) : strat ≠ st.code := by
    rintro rfl
    cases st <;> exact absurd h (by decide)
  simp only [decodeInit, if_neg (hne _)]

/-- Settles O12, a row at a time: each field of the word reads back the operand placed there. -/
theorem decodeOfEncode : Obligations.DecodeOfEncode := by
  intro i hwf
  cases i with
  | initStatic p => exact (decode_encodeInit _ p).trans (congrArg _ (decodeInit_code .static p))
  | initGshare p => exact (decode_encodeInit _ p).trans (congrArg _ (decodeInit_code .gshare p))
  | initTournament p => exact (decode_encodeInit _ p).trans (congrArg _ (decodeInit_code .tournament p))
  | initCustom p => exact (decode_encodeInit _ p).trans (congrArg _ (decodeInit_code .custom p))
  | initUnrecognised strat p =>
    have hcode : 4 ≤ strat.toNat := of_decide_eq_true hwf
    exact (decode_encodeInit strat p).trans (congrArg _ (decodeInit_of_four_le hcode p))
  | predict pc =>
    obtain ⟨hop, ho, hpc⟩ := fields_encode_predict pc
    simp [decode, hop, ho, hpc]
  | train pc o =>
    obtain ⟨hop, ho, hpc⟩ := fields_encode_train pc o
    simp [decode, hop, ho, hpc, ofBit_bit]
  | teardown => decide

/-! ### Encoding what was decoded -/

/-- Two adjacent fields of a word, each in its place, are the one field they form, in its place. -/
theorem placeField_or_placeField {hi lo m n : Nat} (h : hi = lo + n) (w : CmdWord) :
    placeField hi (w.extractLsb' hi m) ||| placeField lo (w.extractLsb' lo n)
      = placeField lo (w.extractLsb' lo (m + n)) := by
  subst h
  ext i hi'
  by_cases hlo : lo ≤ i
  · by_cases hhi : lo + n ≤ i
    · have hout : ¬ i - lo < n := by omega
      have hrest : i - (lo + n) < m ↔ i - lo < m + n := by omega
      simp [getElem_placeField, hlo, hhi, hout, hrest]
    · have hlow : i - lo < n := by omega
      have hall : i - lo < m + n := by omega
      simp [getElem_placeField, hlo, hhi, hlow, hall]
  · have hhi : ¬ lo + n ≤ i := by omega
    simp [getElem_placeField, hlo, hhi]

theorem placeField_whole (w : CmdWord) : placeField 0 (w.extractLsb' 0 35) = w := by
  rw [BitVec.extractLsb'_eq_self]
  simp [placeField]

theorem bit_ofBit (b : BitVec 1) : (Direction.ofBit b).bit = b := by
  revert b; decide

theorem encodeInit_of_fields {w : CmdWord} (hop : w.extractLsb' 33 2 = 0#2) :
    encodeInit (w.extractLsb' 30 3) (decodeWidths w) = w := by
  simp only [encodeInit, decodeWidths, ← hop]
  simp (disch := rfl) only [placeField_or_placeField]
  exact placeField_whole w

/-- The strategy code of whichever row `decodeInit` chooses is the one it was given. -/
theorem encode_decodeInit (strat : BitVec 3) (p : Widths) :
    WellFormed (decodeInit strat p) = true ∧ encode (decodeInit strat p) = encodeInit strat p := by
  unfold decodeInit
  split_ifs with h0 h1 h2 h3
  · exact ⟨rfl, by rw [h0]; rfl⟩
  · exact ⟨rfl, by rw [h1]; rfl⟩
  · exact ⟨rfl, by rw [h2]; rfl⟩
  · exact ⟨rfl, by rw [h3]; rfl⟩
  · have hcode : ∀ c : BitVec 3, c ≠ 0#3 → c ≠ 1#3 → c ≠ 2#3 → c ≠ 3#3 → 4 ≤ c.toNat := by decide
    exact ⟨decide_eq_true (hcode strat h0 h1 h2 h3), rfl⟩

theorem encode_predict_of_fields {w : CmdWord} (hop : w.extractLsb' 33 2 = 1#2) (ho : w.extractLsb' 32 1 = 0#1) :
    encode (.predict (w.extractLsb' 0 32)) = w := by
  have hout : placeField 33 1#2 = placeField 33 1#2 ||| placeField 32 0#1 := by decide
  simp only [encode]
  rw [hout, ← hop, ← ho]
  simp (disch := rfl) only [placeField_or_placeField]
  exact placeField_whole w

theorem encode_train_of_fields {w : CmdWord} (hop : w.extractLsb' 33 2 = 2#2) :
    encode (.train (w.extractLsb' 0 32) (Direction.ofBit (w.extractLsb' 32 1))) = w := by
  simp (disch := rfl) only [encode, bit_ofBit, ← hop, placeField_or_placeField]
  exact placeField_whole w

/-- Settles O13: in each case that decodes, the fields the encoder places are those the decoder read, and together
they are the whole word. -/
theorem encodeOfDecode : Obligations.EncodeOfDecode := by
  intro w i hdecode
  rcases decode_cases w with ⟨hop, h⟩ | ⟨-, -, h⟩ | ⟨hop, ho, h⟩ | ⟨hop, h⟩ | ⟨hop, hz, h⟩ | ⟨-, -, h⟩
  · obtain rfl := Except.ok.inj (h.symm.trans hdecode)
    obtain ⟨hwf, henc⟩ := encode_decodeInit (w.extractLsb' 30 3) (decodeWidths w)
    exact ⟨hwf, henc.trans (encodeInit_of_fields hop)⟩
  · exact absurd (h.symm.trans hdecode) nofun
  · obtain rfl := Except.ok.inj (h.symm.trans hdecode)
    exact ⟨rfl, encode_predict_of_fields hop ho⟩
  · obtain rfl := Except.ok.inj (h.symm.trans hdecode)
    exact ⟨rfl, encode_train_of_fields hop⟩
  · obtain rfl := Except.ok.inj (h.symm.trans hdecode)
    exact ⟨rfl, ((eq_teardownWord_iff w).mpr ⟨hop, hz⟩).symm⟩
  · exact absurd (h.symm.trans hdecode) nofun

/-! ### Sample words -/

/-- Settles O15: the eleven words, each by evaluation. -/
theorem sampleWordsDecode : Obligations.SampleWordsDecode := by
  unfold Obligations.SampleWordsDecode
  decide

end Sys2Proof.Proofs.RoundTrip

/-! Inferences from the bit-field utilities (spec/41_bitfield.md R121 to R125, spec/42_gshare.md R135): what a history
holds after a run of outcomes, how far the low bits of a history settle, and the settled statements O4, O6, O7 and
O8. -/

namespace Sys2Proof.Proofs.HistoryBits

open Sys2Proof.Machine Sys2Proof.Laws
open Sys2Proof.Proofs.BitField (shiftIn_eq_double_add)

/-! ### lowerBits (R121) -/

theorem xor_lowerBits (a b n : Nat) : lowerBits a n ^^^ lowerBits b n = lowerBits (a ^^^ b) n :=
  Nat.xor_mod_two_pow.symm

theorem lowerBits_lowerBits (a m n : Nat) : lowerBits (lowerBits a m) n = lowerBits a (min m n) := by
  apply Nat.eq_of_testBit_eq
  intro i
  simp only [testBit_lowerBits, lt_min_iff, Bool.decide_and]
  rw [Bool.and_left_comm, Bool.and_assoc]

/-- Settles O4: a value below `2^n` is at most `2^n - 1`, and the laws hold bit by bit. -/
theorem lowerBitsLaws : Obligations.LowerBitsLaws := by
  intro W a b m n _ _ _ _
  refine ⟨Nat.le_sub_one_of_lt (lowerBits_lt a n), ?_, xor_lowerBits a b n, lowerBits_lowerBits a m n⟩
  rw [xor_lowerBits]
  exact Nat.le_sub_one_of_lt (lowerBits_lt _ n)

/-! ### What a history holds (R123) -/

/-- The number a list of outcomes spells in binary, its oldest outcome the top digit (R123). -/
def outcomesValue (os : List Direction) : Nat :=
  ∑ i : Fin os.length, (if os.get i = .taken then 1 else 0) * 2 ^ (os.length - 1 - i.val)

theorem outcomesValue_cons (o : Direction) (os : List Direction) :
    outcomesValue (o :: os) = (if o = .taken then 1 else 0) * 2 ^ os.length + outcomesValue os := by
  refine (Fin.sum_univ_succ (n := os.length) _).trans ?_
  cases o <;> simp [outcomesValue, Nat.sub_sub, Nat.add_comm]

theorem foldl_shiftIn (histW : Nat) (os : List Direction) (h : History) :
    os.foldl (shiftIn histW) h % 2 ^ histW = (h * 2 ^ os.length + outcomesValue os) % 2 ^ histW := by
  induction os generalizing h with
  | nil => simp [outcomesValue]
  | cons o os ih =>
    rw [List.foldl_cons, ih, outcomesValue_cons, List.length_cons, shiftIn_eq_double_add]
    have hshift := (Nat.mod_modEq (2 * h + if o = .taken then 1 else 0) (2 ^ histW)).mul_right (2 ^ os.length)
    refine (hshift.add_right (outcomesValue os)).trans (congrArg (· % 2 ^ histW) ?_)
    ring

theorem foldl_shiftIn_lt (histW : Nat) (os : List Direction) {h : History} (hh : h < 2 ^ histW) :
    os.foldl (shiftIn histW) h < 2 ^ histW := by
  induction os generalizing h with
  | nil => exact hh
  | cons o os ih => exact ih (shiftIn_lt histW h o)

/-- Each outcome moves a clear stretch of high bits up by one place. -/
theorem testBit_foldl_shiftIn (histW : Nat) (os : List Direction) (h : History) {j : Nat} (hj : os.length ≤ j)
    (hclear : h.testBit (j - os.length) = false) : (os.foldl (shiftIn histW) h).testBit j = false := by
  induction os generalizing h with
  | nil => exact hclear
  | cons o os ih =>
    rw [List.length_cons] at hj hclear
    have hpos : j - os.length ≠ 0 := by omega
    have hbelow : j - os.length - 1 = j - (os.length + 1) := by omega
    refine ih (shiftIn histW h o) (by omega) ?_
    rw [testBit_shiftIn, if_neg hpos, hbelow, hclear, Bool.and_false]

/-- Settles O6, by induction on the outcomes from any starting history. -/
theorem historyHoldsTheOutcomes : Obligations.HistoryHoldsTheOutcomes := by
  intro histW os
  refine ⟨?_, fun j hj => testBit_foldl_shiftIn histW os 0 hj (Nat.zero_testBit _)⟩
  have hfold := foldl_shiftIn histW os 0
  rwa [Nat.mod_eq_of_lt (foldl_shiftIn_lt histW os (Nat.two_pow_pos histW)), Nat.zero_mul, Nat.zero_add] at hfold

/-! ### The low bits of the next history (R125) -/

/-- In a register that holds the low `n` bits, its own width plays no part in them. -/
theorem lowerBits_shiftIn {histW n : Nat} (hn : n ≤ histW) (h : History) (o : Direction) :
    lowerBits (shiftIn histW h o) n = (2 * h + if o = .taken then 1 else 0) % 2 ^ n := by
  rw [shiftIn_eq_double_add, lowerBits, Nat.mod_mod_of_dvd _ (Nat.pow_dvd_pow 2 hn)]

/-- The low bits of the next history are a function of the low bits of this one and the outcome. -/
theorem lowerBits_shiftIn_congr {histW histW' n : Nat} (hn : n ≤ histW) (hn' : n ≤ histW') {h h' : History}
    (hlow : lowerBits h n = lowerBits h' n) (o : Direction) :
    lowerBits (shiftIn histW h o) n = lowerBits (shiftIn histW' h' o) n := by
  rw [lowerBits_shiftIn hn, lowerBits_shiftIn hn']
  have hmod : h ≡ h' [MOD 2 ^ n] := hlow
  exact (hmod.mul_left 2).add_right _

/-- Settles O7: both clauses are the congruence, the first between a history and its own low bits. -/
theorem shiftInLowBitsLemma : Obligations.ShiftInLowBitsLemma := by
  intro histW histW' h h' o n hn hn'
  have hself : lowerBits h n = lowerBits (lowerBits h n) n := by rw [lowerBits_lowerBits, min_self]
  exact ⟨lowerBits_shiftIn_congr hn hn hself o, fun hlow => lowerBits_shiftIn_congr hn hn' hlow o⟩

/-! ### A constant outcome (R135) -/

theorem testBit_iterate_shiftIn (histW : Nat) (h : History) (o : Direction) {m i : Nat} (hm : i < m) (hi : i < histW) :
    ((fun x => shiftIn histW x o)^[m] h).testBit i = (o == .taken) := by
  induction m generalizing i with
  | zero => omega
  | succ m ih =>
    rw [Function.iterate_succ_apply', testBit_shiftIn, decide_eq_true hi, Bool.true_and]
    cases i with
    | zero => rfl
    | succ i => exact ih (by omega) (by omega)

/-- After at least `n` equal outcomes the low `n` bits all show that outcome. -/
theorem lowerBits_iterate_shiftIn {histW n m : Nat} (hn : n ≤ histW) (hm : n ≤ m) (h : History) (o : Direction) :
    lowerBits ((fun x => shiftIn histW x o)^[m] h) n = if o = .taken then 2 ^ n - 1 else 0 := by
  apply Nat.eq_of_testBit_eq
  intro i
  rw [testBit_lowerBits]
  by_cases hi : i < n
  · rw [testBit_iterate_shiftIn histW h o (by omega) (by omega)]
    cases o <;> simp [hi, Nat.testBit_two_pow_sub_one]
  · cases o <;> simp [hi, Nat.testBit_two_pow_sub_one]

/-- Settles O8: the index sees the low `n` bits alone, which have settled after `n` outcomes. -/
theorem constantOutcomeSettlesTheIndex : Obligations.ConstantOutcomeSettlesTheIndex := by
  intro histW pc h o n m hn hm
  have hlow := lowerBits_iterate_shiftIn hn hm h o
  refine ⟨hlow, ?_⟩
  rw [gIndex, gIndex, hashIndex, hashIndex, hlow, lowerBits_iterate_shiftIn hn le_rfl]

end Sys2Proof.Proofs.HistoryBits

/-! Storage (spec/10_state.md section 8, spec/20_memory.md): canonical arrays as data, the totals in bits, that every
index stays inside its array, and the settled statements O10, O11 and O56. -/

namespace Sys2Proof.Proofs.Storage

open Sys2Proof.Machine Sys2Proof.Laws

/-! ### Canonical arrays are extensional -/

theorem readCells_head {α : Type} (fill v : α) (i : Nat) (cells : List (Nat × α)) :
    readCells fill ((i, v) :: cells) i = v :=
  if_pos rfl

theorem readCells_tail {α : Type} (fill v : α) {i j : Nat} (cells : List (Nat × α)) (h : j ≠ i) :
    readCells fill ((j, v) :: cells) i = readCells fill cells i :=
  if_neg h

/-- An index below every listed one reads the fill. -/
theorem readCells_of_lt_all {α : Type} (fill : α) {cells : List (Nat × α)} {i : Nat} (h : ∀ c ∈ cells, i < c.1) :
    readCells fill cells i = fill := by
  induction cells with
  | nil => rfl
  | cons c rest ih =>
    obtain ⟨hc, hrest⟩ := List.forall_mem_cons.mp h
    exact (readCells_tail fill c.2 rest hc.ne').trans (ih hrest)

/-- `Memory.wf` as a condition on the fill and the list of cells, for induction on the list. -/
def CanonicalCells {α : Type} (fill : α) (cells : List (Nat × α)) : Prop :=
  cells.Pairwise (fun a b => a.1 < b.1) ∧ ∀ c ∈ cells, c.2 ≠ fill

theorem canonicalCells_of_wf {α : Type} {m : Memory α} (h : m.wf) : CanonicalCells m.fill m.cells := h

theorem canonicalCells_cons {α : Type} {fill v : α} {i : Nat} {cells : List (Nat × α)}
    (h : CanonicalCells fill ((i, v) :: cells)) :
    (∀ c ∈ cells, i < c.1) ∧ v ≠ fill ∧ CanonicalCells fill cells := by
  obtain ⟨hsorted, hlisted⟩ := h
  obtain ⟨hbelow, hsorted⟩ := List.pairwise_cons.mp hsorted
  obtain ⟨hv, hlisted⟩ := List.forall_mem_cons.mp hlisted
  exact ⟨hbelow, hv, hsorted, hlisted⟩

/-- Where another canonical list reads a first cell of this one as this one does, its own first cell is not later. -/
theorem head_le_of_read_eq {α : Type} {fill u v : α} {i j : Nat} {as bs : List (Nat × α)} (hu : u ≠ fill)
    (hbs : ∀ c ∈ bs, j < c.1) (h : readCells fill ((i, u) :: as) i = readCells fill ((j, v) :: bs) i) : j ≤ i := by
  by_contra hlt
  have hij : i < j := Nat.lt_of_not_le hlt
  have hall : ∀ c ∈ (j, v) :: bs, i < c.1 := List.forall_mem_cons.mpr ⟨hij, fun c hc => hij.trans (hbs c hc)⟩
  rw [readCells_of_lt_all fill hall, readCells_head] at h
  exact hu h

theorem eq_nil_of_reads_fill {α : Type} {fill : α} {cells : List (Nat × α)} (hc : CanonicalCells fill cells)
    (h : ∀ i, readCells fill cells i = fill) : cells = [] := by
  cases cells with
  | nil => rfl
  | cons c rest =>
    obtain ⟨-, hv, -⟩ := canonicalCells_cons (v := c.2) hc
    exact absurd ((readCells_head fill c.2 c.1 rest).symm.trans (h c.1)) hv

/-- Two canonical lists that read the same are the same list: their first cells have the same index, hence the same
value, and the rest read the same. -/
theorem cells_ext {α : Type} {fill : α} {as bs : List (Nat × α)} (ha : CanonicalCells fill as)
    (hb : CanonicalCells fill bs) (h : ∀ i, readCells fill as i = readCells fill bs i) : as = bs := by
  induction as generalizing bs with
  | nil => exact (eq_nil_of_reads_fill hb fun i => (h i).symm).symm
  | cons a as ih =>
    cases bs with
    | nil => exact eq_nil_of_reads_fill ha h
    | cons b bs =>
      obtain ⟨i, u⟩ := a
      obtain ⟨j, v⟩ := b
      obtain ⟨hia, hu, has⟩ := canonicalCells_cons ha
      obtain ⟨hjb, hv, hbs⟩ := canonicalCells_cons hb
      obtain rfl : i = j := le_antisymm (head_le_of_read_eq hv hia (h j).symm) (head_le_of_read_eq hu hjb (h i))
      have huv : u = v := by simpa [readCells_head] using h i
      have hrest : ∀ k, readCells fill as k = readCells fill bs k := by
        intro k
        by_cases hk : i = k
        · subst hk
          rw [readCells_of_lt_all fill hia, readCells_of_lt_all fill hjb]
        · simpa [readCells_tail _ _ _ hk] using h k
      rw [huv, ih has hbs hrest]

/-- Settles O56: with one fill the two lists of cells read the same, hence are the same. -/
theorem canonicalArraysAreExtensional : Obligations.CanonicalArraysAreExtensional := by
  intro α a b ha hb hfill hread
  obtain ⟨fill, as⟩ := a
  obtain ⟨fill', bs⟩ := b
  obtain rfl : fill = fill' := hfill
  exact congrArg (Memory.mk fill) (cells_ext (canonicalCells_of_wf ha) (canonicalCells_of_wf hb) hread)

/-! ### Totals (R47) -/

theorem counterSpace_bits (name : TableName) (n m : Nat) : (counterSpace name n m).bits = 2 ^ n * 2 := rfl

/-- Two ways of a tag and a counter, and an LRU bit, for each set (R35). -/
theorem spacesBits_cacheSpaces (c : CacheName) (p : Widths) :
    spacesBits (cacheSpaces c p) = 2 * 2 ^ p.k.toNat * (p.t.toNat + 2) + 2 ^ p.k.toNat := by
  simp only [spacesBits, cacheSpaces, List.map_cons, List.map_nil, List.sum_cons, List.sum_nil, counterSpace_bits]
  simp only [ArraySpace.bits]
  ring

theorem spacesBits_cons (a : ArraySpace) (spaces : List ArraySpace) :
    spacesBits (a :: spaces) = a.bits + spacesBits spaces := by
  simp [spacesBits]

theorem spacesBits_append (xs ys : List ArraySpace) : spacesBits (xs ++ ys) = spacesBits xs + spacesBits ys := by
  simp [spacesBits]

theorem storageBits_tournament (histW : Nat) (p : Widths) :
    storageBits histW .tournament p
      = 2 ^ p.g.toNat * 2 + 2 ^ p.l.toNat * 2 + 2 ^ p.l.toNat * histW + 2 ^ p.g.toNat * 2 + histW := by
  simp only [storageBits, arraySpaces, ghrBits, spacesBits, List.map_cons, List.map_nil, List.sum_cons, List.sum_nil,
    counterSpace_bits]
  simp only [ArraySpace.bits, Nat.add_zero, Nat.add_assoc]

theorem storageBits_custom (histW : Nat) (p : Widths) :
    storageBits histW .custom p
      = 2 ^ p.c.toNat * 2 + 2 * (2 * 2 ^ p.k.toNat * (p.t.toNat + 2) + 2 ^ p.k.toNat) + histW := by
  simp only [storageBits, arraySpaces, ghrBits, spacesBits_cons, spacesBits_append, spacesBits_cacheSpaces,
    counterSpace_bits]
  ring

/-- Settles O10: the formulas for all widths, and the observed defaults by evaluation. -/
theorem storageTotals : Obligations.StorageTotals :=
  ⟨fun histW p => ⟨rfl, rfl, storageBits_tournament histW p, storageBits_custom histW p⟩,
    by decide, by decide, by decide, by decide, by decide, by decide⟩

/-! ### Every index is in range (R61, R62) -/

/-- What the statement asks of a space whose index is `i`. -/
structure SpaceCovers (a : ArraySpace) (i : Nat) : Prop where
  addressed : a.addressed ≤ a.cells
  readBits : a.readBits ≤ a.cellBits
  index : i < a.addressed

theorem SpaceCovers.usedBits {a : ArraySpace} {i : Nat} (h : SpaceCovers a i) : a.usedBits ≤ a.bits :=
  Nat.mul_le_mul h.addressed h.readBits

theorem covers_counterSpace (name : TableName) {n m i : Nat} (hm : m ≤ n) (hi : i < 2 ^ m) :
    SpaceCovers (counterSpace name n m) i :=
  ⟨Nat.pow_le_pow_right (by decide) hm, le_rfl, hi⟩

/-- A set number has no more bits than the key it is taken from (R62). -/
theorem cacheIndex_lt_min (pc : Pc) (ghr : History) (c k : Nat) : cacheIndex pc ghr c k < 2 ^ min c k := by
  have hkey : cacheKey pc ghr c < 2 ^ c := gIndex_lt pc ghr c
  rcases le_total c k with h | h
  · rw [min_eq_left h]
    exact (Nat.mod_le _ _).trans_lt hkey
  · rw [min_eq_right h]
    exact cacheIndex_lt pc ghr c k

theorem covers_cacheSpaces (n : CacheName) (p : Widths) (pc : Pc) (ghr : History) (lhist : Memory History) :
    ∀ a ∈ cacheSpaces n p, SpaceCovers a (spaceIndex p pc ghr lhist a.name) := by
  have hmin : min p.c.toNat p.k.toNat ≤ p.k.toNat := min_le_right _ _
  have hsets : 2 ^ min p.c.toNat p.k.toNat ≤ 2 ^ p.k.toNat := Nat.pow_le_pow_right (by decide) hmin
  have hindex := cacheIndex_lt_min pc ghr p.c.toNat p.k.toNat
  simp only [cacheSpaces, List.forall_mem_cons, List.not_mem_nil, false_implies, implies_true, and_true]
  exact ⟨⟨hsets, le_rfl, hindex⟩, ⟨hsets, le_rfl, hindex⟩, covers_counterSpace _ hmin hindex,
    covers_counterSpace _ hmin hindex, ⟨hsets, le_rfl, hindex⟩⟩

theorem covers_arraySpaces {histW : Nat} {st : Strategy} {p : Widths} (hl : p.l.toNat ≤ histW)
    (hcross : st = .tournament → p.l.toNat ≤ p.g.toNat) (pc : Pc) (ghr : History) (lhist : Memory History) :
    ∀ a ∈ arraySpaces histW st p, SpaceCovers a (spaceIndex p pc ghr lhist a.name) := by
  cases st with
  | static => exact nofun
  | gshare =>
    simp only [arraySpaces, List.forall_mem_cons, List.not_mem_nil, false_implies, implies_true, and_true]
    exact covers_counterSpace _ le_rfl (gIndex_lt _ _ _)
  | tournament =>
    simp only [arraySpaces, List.forall_mem_cons, List.not_mem_nil, false_implies, implies_true, and_true]
    exact ⟨covers_counterSpace _ le_rfl (gIndex_lt _ _ _), covers_counterSpace _ le_rfl (localIndex_lt _ _ _),
      ⟨le_rfl, hl, pcSlot_lt _ _⟩, covers_counterSpace _ (hcross rfl) (pcSlot_lt _ _)⟩
  | custom =>
    simp only [arraySpaces, List.forall_mem_cons, List.forall_mem_append]
    exact ⟨covers_counterSpace _ le_rfl (choiceIndex_lt _ _), covers_cacheSpaces .tc p pc ghr lhist,
      covers_cacheSpaces .nc p pc ghr lhist⟩

/-- Settles O11: a local history register is at least `L` bits wide, since `L` is at most `MAX_BITS`. -/
theorem indicesStayInsideTheirArrays : Obligations.IndicesStayInsideTheirArrays := by
  intro cfg p st pc ghr lhist hcfg hlegal hcross a ha
  obtain ⟨-, -, hwide, -⟩ := hcfg
  obtain ⟨-, ⟨-, hl⟩, -⟩ := hlegal
  have h := covers_arraySpaces (hl.trans hwide) hcross pc ghr lhist a ha
  exact ⟨h.addressed, h.readBits, h.usedBits, h.index⟩

end Sys2Proof.Proofs.Storage

/-! One step at the channel (spec/30_encoding.md section 1, spec/45_dispatcher.md sections 1, 5 and 7): what a step does
with each thing it can find presented, which words it can answer, and the settled statements O17, O19, O20, O21, O40,
O43, O50 and O51. -/

namespace Sys2Proof.Proofs.Channel

open Sys2Proof.Machine Sys2Proof.Safety Sys2Proof.Laws
open Sys2Proof.Proofs.Answer (initialise_eq_answered)
open Sys2Proof.Proofs.Dispatcher
open Sys2Proof.Proofs.Encoding (initOf)
open Sys2Proof.Proofs.Lockstep (step_alike observe_eq)

/-! ### What a step finds presented (R80, R81, R240) -/

theorem step_of_quiet {s : State} (hin : s.inputs = []) : step s = .next (idle s) := by
  simp only [step, fetch, hin]

theorem step_of_hardwareReset {s : State} {inFlight : Option CmdWord} {rest : List HostInput}
    (hin : s.inputs = .hardwareReset inFlight :: rest) :
    step s = .next (hardwareReset { s with inputs := rest }) := by
  simp only [step, fetch, hin]

theorem step_of_decoded {s : State} {w : CmdWord} {rest : List HostInput} {i : Instr}
    (hin : s.inputs = .command w :: rest) (hready : s.cmdReady = true) (hdecode : decode w = .ok i) :
    step s = exec i (accept rest s) := by
  simp only [step, fetch, hin, hready, if_true, hdecode]

/-- Settles O17: the state after the accepting edge is the one `accept` gives. -/
theorem stepRunsTheDecodedCommand : Obligations.StepRunsTheDecodedCommand := fun _ _ _ _ hin hready hdecode =>
  step_of_decoded hin hready hdecode

/-- Settles O19: the step is the quiet one of the handshake. -/
theorem quietStepHoldsTheState : Obligations.QuietStepHoldsTheState := fun _ hin => step_of_quiet hin

/-- Settles O20: the reset does not look at the command in flight, so with and without one it is the same step. -/
theorem hardwareResetLeavesUninit : Obligations.HardwareResetLeavesUninit := fun _ _ _ hin =>
  ⟨_, step_of_hardwareReset hin, rfl, rfl, rfl, rfl, rfl, rfl, step_of_hardwareReset rfl⟩

/-- Settles O21: every register and parameter named, by evaluation. -/
theorem powerOnState : Obligations.PowerOnState := by
  unfold Obligations.PowerOnState
  decide

/-! ### The words a step can answer (R202) -/

/-- The response words of the rows of R202, `OK` and `OK N` being one word. -/
def responseWords : List RspWord := [0b0000#4, 0b0001#4, 0b0100#4, 0b1000#4, 0b1100#4]

theorem rspDiag_of_mem {r : RspWord} (h : r ∈ responseWords) : rspDiag r = false := by
  have hall : ∀ r ∈ responseWords, rspDiag r = false := by decide
  exact hall r h

theorem predictionWord_mem (d : Direction) : predictionWord d ∈ responseWords := by
  cases d <;> decide

/-- `t` is some state answered with a word of the table. -/
def AnsweredByTable (t : State) : Prop :=
  ∃ r ∈ responseWords, ∃ s, t = answered r s

theorem answeredByTable_initialise (cross : Bool) (e : Engine) (p : Widths) (s : State) :
    AnsweredByTable (initialise cross e p s) := by
  rcases initialise_cases cross e p s with ⟨hlegal, hcross, -⟩ | ⟨-, hfail⟩
  · exact ⟨_, by decide, _, initialise_eq_answered e hlegal hcross⟩
  · exact ⟨0b0100#4, by decide, release s, hfail⟩

theorem answeredByTable_initOf {st : Strategy} {p : Widths} {s t : State} (h : exec (initOf st p) s = .next t) :
    AnsweredByTable t := by
  obtain rfl := Host.Outcome.next.inj ((exec_initOf st p s).symm.trans h)
  exact answeredByTable_initialise _ _ p s

theorem answeredByTable_exec {i : Instr} {s t : State} (h : exec i s = .next t) : AnsweredByTable t := by
  cases i with
  | initStatic p => exact answeredByTable_initOf (st := .static) h
  | initGshare p => exact answeredByTable_initOf (st := .gshare) h
  | initTournament p => exact answeredByTable_initOf (st := .tournament) h
  | initCustom p => exact answeredByTable_initOf (st := .custom) h
  | initUnrecognised strat p => cases h; exact ⟨0b0100#4, by decide, release s, rfl⟩
  | predict pc =>
    rcases exec_predict_cases h with ⟨-, rfl⟩ | ⟨-, d, rfl⟩
    · exact ⟨_, by decide, s, rfl⟩
    · exact ⟨_, predictionWord_mem d, s, rfl⟩
  | train pc o =>
    rcases exec_train_cases h with ⟨-, rfl⟩ | ⟨-, e, -, rfl⟩
    · exact ⟨_, by decide, s, rfl⟩
    · exact ⟨_, by decide, _, rfl⟩
  | teardown =>
    rcases execTeardown_cases s with ⟨hu, -⟩ | ⟨hr, -⟩
    · obtain rfl := Host.Outcome.next.inj ((exec_teardown_uninit hu).symm.trans h)
      exact ⟨_, by decide, s, rfl⟩
    · obtain rfl := Host.Outcome.next.inj ((exec_teardown_ready hr).symm.trans h)
      exact ⟨_, by decide, release s, rfl⟩

/-- A step takes a word in and answers it by the table, or takes none in and answers nothing. -/
theorem step_answer_cases {s t : State} (h : step s = .next t) :
    ((∃ w rest, s.inputs = .command w :: rest ∧ s.cmdReady = true) ∧ AnsweredByTable t)
      ∨ ((¬ ∃ w rest, s.inputs = .command w :: rest ∧ s.cmdReady = true) ∧ t.rsp = none ∧ t.diagRecords = []) := by
  rcases step_cases h with ⟨rfl, hquiet⟩ | ⟨f, rest, hin, rfl⟩ | ⟨w, rest, i, hin, hready, -, hexec⟩
      | ⟨w, rest, e, hin, hready, -, rfl⟩
  · refine .inr ⟨fun ⟨w, rest, hin, hready⟩ => ?_, rfl, rfl⟩
    rcases hquiet with hnil | hbusy
    · exact absurd (hnil.symm.trans hin) nofun
    · exact absurd (hbusy.symm.trans hready) nofun
  · exact .inr ⟨fun ⟨w, rest', hword, _⟩ => absurd (hin.symm.trans hword) (by simp), rfl, rfl⟩
  · exact .inl ⟨⟨w, rest, hin, hready⟩, answeredByTable_exec hexec⟩
  · exact .inl ⟨⟨w, rest, hin, hready⟩, 0b1100#4, by decide, accept rest s, rfl⟩

/-- Settles O43: an answer is a word of the table with no record; a step that took no word in answers nothing. -/
theorem onlyTheseResponseWords : Obligations.OnlyTheseResponseWords := by
  intro s t h
  rcases step_answer_cases h with ⟨hword, r, hr, u, rfl⟩ | ⟨hnone, hrsp, hdiag⟩
  · refine ⟨rfl, fun q hq => ?_, fun _ => hword, fun _ => nofun⟩
    obtain rfl := Option.some.inj hq
    exact ⟨rspDiag_of_mem hr, hr⟩
  · refine ⟨hdiag, fun q hq => absurd (hrsp.symm.trans hq) nofun, fun hne => absurd hrsp hne, fun hword => ?_⟩
    exact absurd hword hnone

/-! ### What TRAIN keeps (R197) -/

theorem strat_of_train {e e' : Engine} {histW : Nat} {p : Widths} {pc : Pc} {o : Direction} {diag : List DiagRecord}
    (h : e.train histW p pc o = some (e', diag)) : e'.strat = e.strat := by
  cases e with
  | uninit b => cases h
  | static => cases h; rfl
  | gshare x => cases h; rfl
  | tournament x => cases h; rfl
  | custom x => cases h; rfl

/-- Settles O40: a training replaces the strategy state by one of the same strategy, and nothing else. -/
theorem trainKeepsTheConfiguration : Obligations.TrainKeepsTheConfiguration := by
  intro pc o s t h
  rcases execTrain_cases h with ⟨-, -, rfl⟩ | ⟨e, diag, -, htrain, rfl⟩
  · exact ⟨rfl, rfl, rfl, rfl, rfl⟩
  · obtain ⟨hready, he, -⟩ := ready_of_train htrain
    exact ⟨he.trans hready.symm, strat_of_train htrain, rfl, rfl, rfl⟩

/-! ### Machines no command can tell apart (R51, spec/93 U12 and U13) -/

/-- Settles O51: the two steps answer alike or stop alike, and the first is known to answer. -/
theorem stepKeepsIndistinguishable : Obligations.StepKeepsIndistinguishable := by
  intro a b a' h hstep
  rcases step_alike h with ⟨u, v, hu, hv, halike⟩ | ⟨f, hf, -⟩
  · obtain rfl := Host.Outcome.next.inj (hu.symm.trans hstep)
    exact ⟨v, hv, halike.rsp.symm, halike.diagRecords.symm, halike.toIndistinguishable⟩
  · exact absurd (hf.symm.trans hstep) nofun

/-- Settles O50, by the induction on the number of steps that serves every such pair. -/
theorem uninitRegistersAreUnobservable : Obligations.UninitRegistersAreUnobservable := fun n _ _ h => observe_eq n h

end Sys2Proof.Proofs.Channel

/-! Tags of the Custom caches (spec/10_state.md section 7, spec/44_custom_yags.md section 5): what a training does to the
tags of a set, a lookup right after `INIT`, and the settled statements O48 and O49. -/

namespace Sys2Proof.Proofs.Tags

open Sys2Proof.Machine Sys2Proof.Safety Sys2Proof.Laws
open Sys2Proof.Proofs.Answer (initialise_eq_answered)
open Sys2Proof.Proofs.Custom

/-! ### What a training does to tags (R43, R168, R169) -/

theorem wayNo_cases (w : WayNo) : w = 0#1 ∨ w = 1#1 := by
  revert w; decide

theorem tags_hitUpdate (c : Cache) (set : Nat) (w : WayNo) (o : Direction) :
    (hitUpdate c set w o).way0.tag = c.way0.tag ∧ (hitUpdate c set w o).way1.tag = c.way1.tag := by
  rcases wayNo_cases w with rfl | rfl <;> exact ⟨rfl, rfl⟩

theorem tags_allocate (c : Cache) (set : Nat) (tg : Tag) (o : Direction) :
    ((allocate c set tg o).way0.tag = c.way0.tag.write set tg ∧ (allocate c set tg o).way1.tag = c.way1.tag)
      ∨ ((allocate c set tg o).way0.tag = c.way0.tag
          ∧ (allocate c set tg o).way1.tag = c.way1.tag.write set tg) := by
  rcases wayNo_cases (c.lru.read set) with hlru | hlru
  · rw [allocate_of_victim hlru]; exact .inl ⟨rfl, rfl⟩
  · rw [allocate_of_victim hlru]; exact .inr ⟨rfl, rfl⟩

/-- The tags change only on a miss, and then one way takes the tag that neither way held. -/
theorem tags_cacheTrain (c : Cache) (set : Nat) (tg : Tag) (base o : Direction) :
    ((cacheTrain c set tg base o).way0.tag = c.way0.tag ∧ (cacheTrain c set tg base o).way1.tag = c.way1.tag)
      ∨ (c.way0.tag.read set ≠ tg ∧ c.way1.tag.read set ≠ tg
          ∧ (((cacheTrain c set tg base o).way0.tag = c.way0.tag.write set tg
                ∧ (cacheTrain c set tg base o).way1.tag = c.way1.tag)
              ∨ ((cacheTrain c set tg base o).way0.tag = c.way0.tag
                ∧ (cacheTrain c set tg base o).way1.tag = c.way1.tag.write set tg))) := by
  rcases cacheTrain_cases c set tg base o with ⟨w, -, htrain⟩ | ⟨hmiss, -, htrain⟩ | ⟨-, -, htrain⟩
  · rw [htrain]; exact .inl (tags_hitUpdate c set w o)
  · rw [htrain]
    rcases cacheLookup_cases c set tg with ⟨-, hhit⟩ | ⟨-, -, hhit⟩ | ⟨h0, h1, -⟩
    · exact absurd (hmiss.symm.trans hhit) nofun
    · exact absurd (hmiss.symm.trans hhit) nofun
    · exact .inr ⟨h0, h1, tags_allocate c set tg o⟩
  · rw [htrain]; exact .inl ⟨rfl, rfl⟩

/-- Set `j` has the tags in `b` that it has in `a`, or two different tags. -/
def TagsKeptOrDistinct (a b : Cache) (j : Nat) : Prop :=
  (b.way0.tag.read j = a.way0.tag.read j ∧ b.way1.tag.read j = a.way1.tag.read j)
    ∨ b.way0.tag.read j ≠ b.way1.tag.read j

theorem tagsKeptOrDistinct_cacheTrain (c : Cache) (set : Nat) (tg : Tag) (base o : Direction) (j : Nat) :
    TagsKeptOrDistinct c (cacheTrain c set tg base o) j := by
  by_cases hj : j = set
  · subst hj
    rcases tags_cacheTrain c j tg base o with ⟨h0, h1⟩ | ⟨hne0, hne1, ⟨h0, h1⟩ | ⟨h0, h1⟩⟩
    · exact .inl ⟨by rw [h0], by rw [h1]⟩
    · exact .inr (by rw [h0, h1, read_write_same]; exact hne1.symm)
    · exact .inr (by rw [h0, h1, read_write_same]; exact hne0)
  · obtain ⟨h0, h1, -⟩ := setsAgreeAt_cacheTrain c tg base o hj
    exact .inl ⟨h0, h1⟩

theorem tagsKeptOrDistinct_customTrain (histW : Nat) (p : Widths) (pc : Pc) (o : Direction) (x : CustomState)
    (n : CacheName) (j : Nat) : TagsKeptOrDistinct (x.cache n) ((customTrain histW p pc o x).cache n) j := by
  by_cases hn : n = selectCache (baseline p pc x).dir
  · rw [hn, ← cacheOf_eq_cache_selectCache, ← cacheOf_eq_cache_selectCache, cacheOf_customTrain]
    exact tagsKeptOrDistinct_cacheTrain _ _ _ _ o j
  · rw [cache_customTrain_other histW p pc o x hn]
    exact .inl ⟨rfl, rfl⟩

/-- Settles O48: where the tags of a set are kept, a difference stays and nothing has changed; elsewhere they
differ. -/
theorem tagsStayDistinct : Obligations.TagsStayDistinct := by
  intro pc o s t x y he hexec hy
  obtain rfl := eq_customTrain_of_exec_train he hexec hy
  have hset := tagsKeptOrDistinct_customTrain s.cfg.histW s.widths pc o x
  refine ⟨fun n j hne => ?_, fun n j hchanged => ?_⟩
  · rcases hset n j with ⟨h0, h1⟩ | hdistinct
    · rwa [h0, h1]
    · exact hdistinct
  · rcases hset n j with ⟨h0, h1⟩ | hdistinct
    · exact absurd hchanged (by simp [h0, h1])
    · exact hdistinct

/-! ### No valid bit (R172) -/

/-- A `pc` with the tag of a freshly created way 0 hits it, in every set. -/
theorem cacheLookup_cacheInit {cfg : Config} {t : Nat} {tg : Tag} (h : tagBits cfg.rstYTag t = tg) (set : Nat) :
    cacheLookup (cacheInit cfg t) set tg = some 0#1 :=
  cacheLookup_of_way0 h

theorem tagOf_eq_zero {pc : Pc} {t : Nat} (h : pc.toNat % 2 ^ t = 0) : tagOf pc t = 0#32 :=
  BitVec.eq_of_toNat_eq ((tagBits_toNat pc t).trans h)

theorem tagBits_zero (t : Nat) : tagBits 0#32 t = 0#32 :=
  tagBits_of_lt (Nat.two_pow_pos t)

/-- Where every choice cell predicts `NotTaken` and `pc` has the reset tag, the NC cache's reset counter answers. -/
theorem customPredict_dir_customInit {cfg : Config} {p : Widths} {pc : Pc}
    (hchoice : ctrPredict cfg.rstYChoice = .notTaken) (htag : tagBits cfg.rstYTag p.t.toNat = tagOf pc p.t.toNat) :
    (customPredict p pc (customInit cfg p)).dir = ctrPredict cfg.rstYCtr := by
  have hbase : (baseline p pc (customInit cfg p)).dir = .notTaken := hchoice
  have hcache : cacheOf (baseline p pc (customInit cfg p)).dir (customInit cfg p) = cacheInit cfg p.t.toNat := by
    rw [hbase]; rfl
  rw [customPredict_dir_of_hit p pc _ (hcache ▸ cacheLookup_cacheInit htag _), hcache]
  rfl

/-- Settles O49: every baseline is `WN`, so the NC cache is looked up, and its way 0 holds the reset tag. -/
theorem resetTagHitsWayZero : Obligations.ResetTagHitsWayZero := by
  intro p pc s t hcfg hlegal hinit htag
  have hcreated := initialise_eq_answered (cross := false) (.custom (customInit s.cfg p)) hlegal nofun
  obtain rfl := Host.Outcome.next.inj ((congrArg Host.Outcome.next hcreated).symm.trans hinit)
  have hcell : tagBits s.cfg.rstYTag p.t.toNat = tagOf pc p.t.toNat := by
    rw [hcfg, tagOf_eq_zero htag]; exact tagBits_zero _
  have hdir : (customPredict p pc (customInit s.cfg p)).dir = .notTaken := by
    rw [customPredict_dir_customInit (by rw [hcfg]; decide) hcell, hcfg]; rfl
  rw [hcfg] at hlegal
  obtain ⟨-, -, ⟨-, hc⟩, ⟨-, hk⟩, ⟨-, ht⟩⟩ := hlegal
  have hlimit : indexLimit s.cfg.histW = 32 := by rw [hcfg]; rfl
  have hanswer := exec_predict_custom pc
    (s := answered 0b0000#4 { s with engine := .custom (customInit s.cfg p), widths := p })
    rfl (hlimit ▸ hc) hk ht
  refine ⟨customInit s.cfg p, rfl, cacheLookup_cacheInit hcell _, hanswer.trans ?_⟩
  exact congrArg (fun d => Host.Outcome.next (answered (predictionWord d) _)) hdir

end Sys2Proof.Proofs.Tags

/-! The invariant (spec/10_state.md sections 2, 4, 5 and 7): where a command stops, that no sound state stops, that
every operation on an array, a cache and an engine keeps it sound, and the settled statements O44 to O47. -/

namespace Sys2Proof.Proofs.Soundness

open Sys2Proof.Machine Sys2Proof.Safety Sys2Proof.Laws
open Sys2Proof.Proofs.Answer (new_arraySound)
open Sys2Proof.Proofs.Channel (step_of_quiet step_of_hardwareReset step_of_decoded)
open Sys2Proof.Proofs.Custom Sys2Proof.Proofs.Dispatcher Sys2Proof.Proofs.Tags
open Sys2Proof.Proofs.Encoding (initOf)
open Sys2Proof.Proofs.Exceptions (exec_initUnrecognised)

/-! ### Where a command stops (spec/93 U1, R61) -/

/-- The commands that form indices. -/
def readsIndices (i : Instr) : Prop :=
  (∃ pc, i = .predict pc) ∨ ∃ pc o, i = .train pc o

theorem exec_of_stop {i : Instr} (hi : readsIndices i) {s : State} {f : Fault}
    (hstop : s.engine.stop s.cfg.histW s.widths = some f) : exec i s = .fault f := by
  rcases hi with ⟨pc, rfl⟩ | ⟨pc, o, rfl⟩
  · simp only [exec, execPredict, hstop]
  · simp only [exec, execTrain, hstop]

/-- A command answers where its indices, if it forms any, have a meaning. -/
theorem exists_next_of_exec {i : Instr} {s : State}
    (h : readsIndices i → s.engine.stop s.cfg.histW s.widths = none) : ∃ t, exec i s = .next t := by
  cases i with
  | initStatic p => exact ⟨_, exec_initOf .static p s⟩
  | initGshare p => exact ⟨_, exec_initOf .gshare p s⟩
  | initTournament p => exact ⟨_, exec_initOf .tournament p s⟩
  | initCustom p => exact ⟨_, exec_initOf .custom p s⟩
  | initUnrecognised strat p => exact ⟨_, exec_initUnrecognised strat p s⟩
  | predict pc =>
    simp only [exec, execPredict, h (.inl ⟨pc, rfl⟩)]
    split <;> exact ⟨_, rfl⟩
  | train pc o =>
    simp only [exec, execTrain, h (.inr ⟨pc, o, rfl⟩)]
    split <;> exact ⟨_, rfl⟩
  | teardown =>
    rcases execTeardown_cases s with ⟨-, h⟩ | ⟨-, h⟩ <;> exact ⟨_, h⟩

/-- The widths that give the formulas no meaning, strategy by strategy. -/
theorem stop_ne_none_iff (e : Engine) (histW : Nat) (p : Widths) :
    e.stop histW p ≠ none ↔
      (∃ x, e = .gshare x ∧ indexLimit histW < p.g.toNat)
        ∨ (∃ x, e = .tournament x
            ∧ (indexLimit histW < p.g.toNat ∨ indexLimit histW < p.l.toNat ∨ p.g.toNat < p.l.toNat))
        ∨ ∃ x, e = .custom x ∧ (indexLimit histW < p.c.toNat ∨ 32 < p.k.toNat ∨ 32 < p.t.toNat) := by
  cases e with
  | uninit b => simp [stop_uninit]
  | static => simp [stop_static]
  | gshare x => simp [stop_gshare]
  | tournament x => simp [stop_tournament]; omega
  | custom x => simp [stop_custom]; omega

/-- Settles O47: a command either answers or faults, and faults exactly when it forms an index without a meaning. -/
theorem stopsOnlyOnMeaninglessWidths : Obligations.StopsOnlyOnMeaninglessWidths := by
  intro i s
  rw [← stop_ne_none_iff]
  by_cases h : readsIndices i ∧ s.engine.stop s.cfg.histW s.widths ≠ none
  · obtain ⟨f, hstop⟩ := Option.ne_none_iff_exists'.mp h.2
    have hfault := exec_of_stop h.1 hstop
    exact ⟨fun r hr => absurd (hfault.symm.trans hr) nofun, fun _ => h, fun _ => ⟨f, hfault⟩⟩
  · obtain ⟨t, ht⟩ := exists_next_of_exec (i := i) (s := s) fun hi => by_contra fun hstop => h ⟨hi, hstop⟩
    exact ⟨fun r hr => absurd (ht.symm.trans hr) nofun, fun ⟨f, hf⟩ => absurd (ht.symm.trans hf) nofun,
      fun hboth => absurd hboth h⟩

/-! ### A sound state never stops (R61) -/

theorem le_indexLimit_of_legal {cfg : Config} (hcfg : cfg.wf) {v : WidthReg} (hv : widthLegal cfg.maxBits v) :
    v.toNat ≤ indexLimit cfg.histW := by
  obtain ⟨-, h32, hhist, -⟩ := hcfg
  obtain ⟨-, hmax⟩ := hv
  exact le_min (hmax.trans h32) (hmax.trans hhist)

theorem le_32_of_legal {cfg : Config} (hcfg : cfg.wf) {v : WidthReg} (hv : widthLegal cfg.maxBits v) :
    v.toNat ≤ 32 :=
  (le_indexLimit_of_legal hcfg hv).trans (min_le_left _ _)

theorem stop_of_engineSound {cfg : Config} (hcfg : cfg.wf) {p : Widths} {e : Engine} (he : EngineSound cfg p e) :
    e.stop cfg.histW p = none := by
  cases e with
  | uninit b => exact stop_uninit b _ _
  | static => exact stop_static _ _
  | gshare x =>
    obtain ⟨⟨hg, -⟩, -⟩ := he
    exact (stop_gshare x _ _).mpr (le_indexLimit_of_legal hcfg hg)
  | tournament x =>
    obtain ⟨⟨hg, -⟩, hcross, -⟩ := he
    exact (stop_tournament x _ _).mpr ⟨le_indexLimit_of_legal hcfg hg, hcross⟩
  | custom x =>
    obtain ⟨⟨-, -, hc, hk, ht⟩, -⟩ := he
    exact (stop_custom x _ _).mpr ⟨le_indexLimit_of_legal hcfg hc, le_32_of_legal hcfg hk, le_32_of_legal hcfg ht⟩

/-- Settles O46: of everything a step can find presented only a command can stop, and its indices have a meaning. -/
theorem soundStateNeverStops : Obligations.SoundStateNeverStops := by
  intro s hs
  have hstop := stop_of_engineSound hs.config hs.engine
  cases hin : s.inputs with
  | nil => exact ⟨_, step_of_quiet hin⟩
  | cons x rest =>
    cases x with
    | hardwareReset inFlight => exact ⟨_, step_of_hardwareReset hin⟩
    | command w =>
      cases hdecode : decode w with
      | ok i =>
        rw [step_of_decoded hin hs.quiescent hdecode]
        exact exists_next_of_exec fun _ => hstop
      | error e => exact ⟨_, step_of_illegal hin hs.quiescent hdecode⟩

/-! ### Arrays stay sound -/

section Arrays

variable {α : Type} [DecidableEq α] {m : Memory α} {n i : Nat}

theorem arraySound_write (h : ArraySound m n) (hi : i < 2 ^ n) (v : α) : ArraySound (m.write i v) n :=
  ⟨write_wf m i v h.canonical, write_within m i n v h.inRange hi⟩

theorem mem_cells_write {v : α} {c : Nat × α} (hc : c ∈ (m.write i v).cells) : c = (i, v) ∨ c ∈ m.cells := by
  unfold Memory.write at hc
  split at hc
  · exact .inr (dropCell_absent _ _ c hc).2
  · rcases mem_putCell _ _ _ c hc with rfl | hc
    · exact .inl rfl
    · exact .inr (dropCell_absent _ _ c hc).2

end Arrays

theorem arraySound_updateCell {m : Memory Counter} {n i : Nat} (h : ArraySound m n) (hi : i < 2 ^ n) (o : Direction) :
    ArraySound (updateCell m i o) n :=
  arraySound_write h hi _

theorem arraySound_choiceTrain {m : Memory Counter} {n i : Nat} (h : ArraySound m n) (hi : i < 2 ^ n)
    (lpred gpred o : Direction) : ArraySound (choiceTrain lpred gpred o i m) n := by
  unfold choiceTrain
  split
  · exact h
  · exact arraySound_updateCell h hi _

theorem historiesFit_write {m : Memory History} {w : Nat} (h : HistoriesFit m w) (i : Nat) {v : History}
    (hv : v < 2 ^ w) : HistoriesFit (m.write i v) w := by
  intro j
  rw [read_write]
  split
  · exact hv
  · exact h j

theorem tagsFit_write {m : Memory Tag} {t : Nat} (h : TagsFit m t) (i : Nat) {v : Tag} (hv : v.toNat < 2 ^ t) :
    TagsFit (m.write i v) t := by
  refine ⟨by rw [write_fill]; exact h.fill, fun c hc => ?_⟩
  rcases mem_cells_write hc with rfl | hc
  · exact hv
  · exact h.cells c hc

/-! ### Caches stay sound -/

/-- One way of a sound cache of `2^k` sets with `t`-bit tags. -/
structure WaySound (k t : Nat) (x : Way) : Prop where
  tag : ArraySound x.tag k
  ctr : ArraySound x.ctr k
  fit : TagsFit x.tag t

/-- `CacheSound` without the one condition that is about both ways together (R43). -/
structure CacheShaped (k t : Nat) (c : Cache) : Prop where
  way0 : WaySound k t c.way0
  way1 : WaySound k t c.way1
  lru : ArraySound c.lru k

theorem cacheSound_iff (cfg : Config) (k t : Nat) (c : Cache) :
    CacheSound cfg k t c ↔ CacheShaped k t c ∧ TagsDistinct c (tagBits cfg.rstYTag t) :=
  ⟨fun h => ⟨⟨⟨h.tag0, h.ctr0, h.fit0⟩, ⟨h.tag1, h.ctr1, h.fit1⟩, h.lru⟩, h.distinct⟩,
    fun ⟨⟨h0, h1, hlru⟩, hd⟩ => ⟨h0.tag, h0.ctr, h1.tag, h1.ctr, hlru, h0.fit, h1.fit, hd⟩⟩

theorem wayInit_sound (cfg : Config) (k t : Nat) : WaySound k t (wayInit cfg t) :=
  ⟨new_arraySound _ k, new_arraySound _ k, tagBits_lt _ t, nofun⟩

theorem cacheInit_sound (cfg : Config) (k t : Nat) : CacheSound cfg k t (cacheInit cfg t) :=
  (cacheSound_iff cfg k t _).mpr
    ⟨⟨wayInit_sound cfg k t, wayInit_sound cfg k t, new_arraySound _ k⟩, fun _ _ => rfl⟩

section Caches

variable {k t set : Nat} {c : Cache} (hc : CacheShaped k t c) (hset : set < 2 ^ k)
include hc

theorem way_sound (w : WayNo) : WaySound k t (c.way w) := by
  rcases wayNo_cases w with rfl | rfl
  · exact hc.way0
  · exact hc.way1

include hset

/-- What a hit and an allocation have in common: one way replaced and the LRU cell of the set written. -/
theorem cacheShaped_setWay {x : Way} (hx : WaySound k t x) (w v : WayNo) :
    CacheShaped k t { c.setWay w x with lru := c.lru.write set v } := by
  have hlru := arraySound_write hc.lru hset v
  rcases wayNo_cases w with rfl | rfl
  · exact ⟨hx, hc.way1, hlru⟩
  · exact ⟨hc.way0, hx, hlru⟩

theorem cacheShaped_hitUpdate (w : WayNo) (o : Direction) : CacheShaped k t (hitUpdate c set w o) := by
  have hw := way_sound hc w
  have hhit : WaySound k t { c.way w with ctr := updateCell (c.way w).ctr set o } :=
    ⟨hw.tag, arraySound_updateCell hw.ctr hset o, hw.fit⟩
  exact cacheShaped_setWay hc hset hhit w _

theorem cacheShaped_allocate {tg : Tag} (htg : tg.toNat < 2 ^ t) (o : Direction) :
    CacheShaped k t (allocate c set tg o) := by
  have hw := way_sound hc (c.lru.read set)
  have hfresh : WaySound k t (freshWay (c.way (c.lru.read set)) set tg o) :=
    ⟨arraySound_write hw.tag hset tg, arraySound_write hw.ctr hset _, tagsFit_write hw.fit set htg⟩
  exact cacheShaped_setWay hc hset hfresh _ _

theorem cacheShaped_cacheTrain {tg : Tag} (htg : tg.toNat < 2 ^ t) (base o : Direction) :
    CacheShaped k t (cacheTrain c set tg base o) := by
  rcases cacheTrain_cases c set tg base o with ⟨w, -, htrain⟩ | ⟨-, -, htrain⟩ | ⟨-, -, htrain⟩
  · rw [htrain]; exact cacheShaped_hitUpdate hc hset w o
  · rw [htrain]; exact cacheShaped_allocate hc hset htg o
  · rwa [htrain]

end Caches

/-- The ways of a set come to hold one tag only by keeping the tag they shared (R43). -/
theorem tagsDistinct_of_keptOrDistinct {a b : Cache} {r : Tag} (ha : TagsDistinct a r)
    (h : ∀ j, TagsKeptOrDistinct a b j) : TagsDistinct b r := by
  intro j heq
  rcases h j with ⟨h0, h1⟩ | hne
  · rw [h0]
    exact ha j (h0.symm.trans (heq.trans h1))
  · exact absurd heq hne

theorem cacheSound_cacheTrain {cfg : Config} {k t set : Nat} {c : Cache} (hc : CacheSound cfg k t c)
    (hset : set < 2 ^ k) {tg : Tag} (htg : tg.toNat < 2 ^ t) (base o : Direction) :
    CacheSound cfg k t (cacheTrain c set tg base o) := by
  obtain ⟨hshape, hdistinct⟩ := (cacheSound_iff cfg k t c).mp hc
  exact (cacheSound_iff cfg k t _).mpr ⟨cacheShaped_cacheTrain hshape hset htg base o,
    tagsDistinct_of_keptOrDistinct hdistinct (tagsKeptOrDistinct_cacheTrain c set tg base o)⟩

theorem cacheSound_customTrain {cfg : Config} {p : Widths} {x : CustomState}
    (hx : ∀ n, CacheSound cfg p.k.toNat p.t.toNat (x.cache n)) (pc : Pc) (o : Direction) (n : CacheName) :
    CacheSound cfg p.k.toNat p.t.toNat ((customTrain cfg.histW p pc o x).cache n) := by
  by_cases hn : n = selectCache (baseline p pc x).dir
  · rw [hn, ← cacheOf_eq_cache_selectCache, cacheOf_customTrain, cacheOf_eq_cache_selectCache]
    exact cacheSound_cacheTrain (hx _) (cacheIndex_lt _ _ _ _) (tagBits_lt _ _) _ o
  · rw [cache_customTrain_other cfg.histW p pc o x hn]
    exact hx n

/-! ### Engines stay sound -/

/-- What an `INIT` whose checks pass creates is what its widths describe (R50, R190). -/
theorem newEngine_sound {cfg : Config} (hcfg : cfg.wf) {p : Widths} (hlegal : widthsLegal cfg.maxBits p) {st : Strategy}
    (hcross : crossChecked st = true → p.l.toNat ≤ p.g.toNat) : EngineSound cfg p (newEngine cfg p st) := by
  obtain ⟨-, -, -, hghr, hlhist⟩ := hcfg
  cases st with
  | static => exact hlegal
  | gshare => exact ⟨hlegal, Nat.two_pow_pos _, new_arraySound _ _⟩
  | tournament =>
    exact ⟨hlegal, hcross rfl, hghr, fun _ => hlhist, new_arraySound _ _, new_arraySound _ _, new_arraySound _ _,
      new_arraySound _ _⟩
  | custom => exact ⟨hlegal, hghr, new_arraySound _ _, cacheInit_sound cfg _ _, cacheInit_sound cfg _ _⟩

theorem engineSound_train {cfg : Config} {p : Widths} {e e' : Engine} {pc : Pc} {o : Direction}
    {diag : List DiagRecord} (he : EngineSound cfg p e) (h : e.train cfg.histW p pc o = some (e', diag)) :
    EngineSound cfg p e' := by
  cases e with
  | uninit b => cases h
  | static => cases h; exact he
  | gshare x =>
    cases h
    obtain ⟨hlegal, -, htable⟩ := he
    exact ⟨hlegal, shiftIn_lt _ _ _, arraySound_updateCell htable (gIndex_lt _ _ _) o⟩
  | tournament x =>
    cases h
    obtain ⟨hlegal, hcross, -, hfit, hglobal, hlocal, hhist, hchoice⟩ := he
    have hslot : pcSlot pc p.l.toNat < 2 ^ p.g.toNat :=
      (pcSlot_lt _ _).trans_le (Nat.pow_le_pow_right (by decide) hcross)
    exact ⟨hlegal, hcross, shiftIn_lt _ _ _, historiesFit_write hfit _ (shiftIn_lt _ _ _),
      arraySound_updateCell hglobal (gIndex_lt _ _ _) o, arraySound_updateCell hlocal (localIndex_lt _ _ _) o,
      arraySound_write hhist (pcSlot_lt _ _) _, arraySound_choiceTrain hchoice hslot _ _ o⟩
  | custom x =>
    cases h
    obtain ⟨hlegal, -, hchoice, htc, hnc⟩ := he
    have hcaches : ∀ n, CacheSound cfg p.k.toNat p.t.toNat (x.cache n) := by
      intro n
      cases n
      · exact htc
      · exact hnc
    exact ⟨hlegal, shiftIn_lt _ _ _, arraySound_updateCell hchoice (choiceIndex_lt _ _) o,
      cacheSound_customTrain hcaches pc o .tc, cacheSound_customTrain hcaches pc o .nc⟩

/-! ### States stay sound -/

/-- Settles O44: there is no strategy state to be wrong. -/
theorem powerOnIsSound : Obligations.PowerOnIsSound := ⟨by decide, rfl, trivial⟩

/-- What a state needs to be sound once it is answered: `cmd_ready` is then 1. -/
theorem sound_answered {s : State} (hcfg : s.cfg.wf) (he : EngineSound s.cfg s.widths s.engine) (r : RspWord) :
    Sound (answered r s) :=
  ⟨hcfg, rfl, he⟩

theorem sound_initialise {s : State} (hcfg : s.cfg.wf) (st : Strategy) (p : Widths) :
    Sound (initialise (crossChecked st) (newEngine s.cfg p st) p s) := by
  rcases initialise_cases (crossChecked st) (newEngine s.cfg p st) p s with ⟨hlegal, hcross, h⟩ | ⟨-, h⟩
  · rw [h]; exact ⟨hcfg, rfl, newEngine_sound hcfg hlegal hcross⟩
  · rw [h]; exact ⟨hcfg, rfl, trivial⟩

theorem sound_of_exec_initOf {s t : State} (hcfg : s.cfg.wf) {st : Strategy} {p : Widths}
    (h : exec (initOf st p) s = .next t) : Sound t := by
  obtain rfl := Host.Outcome.next.inj ((exec_initOf st p s).symm.trans h)
  exact sound_initialise hcfg st p

/-- A command keeps the invariant; while it runs `cmd_ready` is 0, so that is not asked of the state before. -/
theorem sound_of_exec {i : Instr} {s t : State} (hcfg : s.cfg.wf) (he : EngineSound s.cfg s.widths s.engine)
    (h : exec i s = .next t) : Sound t := by
  cases i with
  | initStatic p => exact sound_of_exec_initOf (st := .static) hcfg h
  | initGshare p => exact sound_of_exec_initOf (st := .gshare) hcfg h
  | initTournament p => exact sound_of_exec_initOf (st := .tournament) hcfg h
  | initCustom p => exact sound_of_exec_initOf (st := .custom) hcfg h
  | initUnrecognised strat p => cases h; exact ⟨hcfg, rfl, trivial⟩
  | predict pc =>
    obtain ⟨r, rfl⟩ := exists_answered_of_predict h
    exact sound_answered hcfg he r
  | train pc o =>
    rcases execTrain_cases h with ⟨-, -, rfl⟩ | ⟨e, diag, -, htrain, rfl⟩
    · exact sound_answered hcfg he _
    · exact ⟨hcfg, rfl, engineSound_train he htrain⟩
  | teardown =>
    rcases execTeardown_cases s with ⟨-, hexec⟩ | ⟨-, hexec⟩
    · obtain rfl := Host.Outcome.next.inj (hexec.symm.trans h)
      exact sound_answered hcfg he _
    · obtain rfl := Host.Outcome.next.inj (hexec.symm.trans h)
      exact ⟨hcfg, rfl, trivial⟩

/-- Settles O45: a quiet step and an illegal word keep the engine, a reset leaves none, and a command keeps it sound. -/
theorem stepKeepsSound : Obligations.StepKeepsSound := by
  intro s t hs h
  obtain ⟨hcfg, -, he⟩ := hs
  rcases step_cases h with ⟨rfl, -⟩ | ⟨f, rest, -, rfl⟩ | ⟨w, rest, i, -, -, -, hexec⟩ | ⟨w, rest, e, -, -, -, rfl⟩
  · exact ⟨hcfg, rfl, he⟩
  · exact ⟨hcfg, rfl, trivial⟩
  · exact sound_of_exec (s := accept rest s) hcfg he hexec
  · exact sound_answered (s := accept rest s) hcfg he _

end Sys2Proof.Proofs.Soundness

/-! Machines that differ in `HIST_W` and in high history bits (spec/10_state.md section 3 R29, spec/93 U9): that every
index, prediction, training, command and step sees only the low bits, and the settled statements O53 and O54. -/

namespace Sys2Proof.Proofs.HistoryWidth

open Sys2Proof.Machine Sys2Proof.Safety Sys2Proof.Laws
open Sys2Proof.Proofs.Dispatcher
open Sys2Proof.Proofs.Encoding (initOf)
open Sys2Proof.Proofs.HistoryBits (lowerBits_shiftIn_congr)
open Sys2Proof.Proofs.Lockstep (observe_of_next observe_of_fault)
open Sys2Proof.Proofs.Soundness (le_indexLimit_of_legal le_32_of_legal)
open Sys2Proof.Proofs.Custom
  (cacheOf_eq_cache_selectCache cacheOf_customTrain cache_customTrain_other baseline_diag)
open Sys2Proof.Proofs.Tournament (tournamentTrainDiag_nil)

/-! ### Indices see the low bits alone (R29) -/

theorem hashIndex_congr {n : Nat} {h h' : History} (hlow : SameLow n h h') (pc : Pc) :
    hashIndex pc h n = hashIndex pc h' n := by
  rw [hashIndex, hashIndex, show lowerBits h n = lowerBits h' n from hlow]

theorem cacheIndex_congr {c : Nat} {h h' : History} (hlow : SameLow c h h') (pc : Pc) (k : Nat) :
    cacheIndex pc h c k = cacheIndex pc h' c k := by
  rw [cacheIndex, cacheIndex, cacheKey, cacheKey, hashIndex_congr hlow]

theorem localIndex_congr {l : Nat} {m m' : Memory History} (hlow : ∀ i, SameLow l (m.read i) (m'.read i)) (pc : Pc) :
    localIndex m pc l = localIndex m' pc l :=
  hlow (pcSlot pc l)

/-! ### The relation on engines, strategy by strategy -/

/-- Everything the relation can mean: two engines of one strategy that holds histories, or one engine that holds
none. -/
theorem sameButHighHistory_cases {p : Widths} {e e' : Engine} (h : SameButHighHistory p e e') :
    (∃ x y, e = .gshare x ∧ e' = .gshare y ∧ x.table = y.table ∧ SameLow p.g.toNat x.ghr y.ghr)
      ∨ (∃ x y, e = .tournament x ∧ e' = .tournament y ∧ x.globalTable = y.globalTable
          ∧ x.localTable = y.localTable ∧ x.choice = y.choice ∧ SameLow p.g.toNat x.ghr y.ghr
          ∧ ∀ i, SameLow p.l.toNat (x.localHist.read i) (y.localHist.read i))
      ∨ (∃ x y, e = .custom x ∧ e' = .custom y ∧ x.choice = y.choice ∧ x.tc = y.tc ∧ x.nc = y.nc
          ∧ SameLow p.c.toNat x.ghr y.ghr)
      ∨ (e = e' ∧ (e.mode = .uninit ∨ e = .static)) := by
  unfold SameButHighHistory at h
  split at h
  next x y => exact .inl ⟨x, y, rfl, rfl, h⟩
  next x y => exact .inr (.inl ⟨x, y, rfl, rfl, h⟩)
  next x y => exact .inr (.inr (.inl ⟨x, y, rfl, rfl, h⟩))
  next hgshare htournament hcustom =>
    subst h
    refine .inr (.inr (.inr ⟨rfl, ?_⟩))
    cases e with
    | uninit b => exact .inl rfl
    | static => exact .inr rfl
    | gshare x => exact absurd rfl (hgshare x x rfl)
    | tournament x => exact absurd rfl (htournament x x rfl)
    | custom x => exact absurd rfl (hcustom x x rfl)

theorem sameButHighHistory_refl (p : Widths) (e : Engine) : SameButHighHistory p e e := by
  cases e with
  | uninit b => rfl
  | static => rfl
  | gshare x => exact ⟨rfl, rfl⟩
  | tournament x => exact ⟨rfl, rfl, rfl, rfl, fun _ => rfl⟩
  | custom x => exact ⟨rfl, rfl, rfl, rfl⟩

theorem mode_eq_of_same {p : Widths} {e e' : Engine} (h : SameButHighHistory p e e') : e.mode = e'.mode := by
  rcases sameButHighHistory_cases h with ⟨x, y, rfl, rfl, -⟩ | ⟨x, y, rfl, rfl, -⟩ | ⟨x, y, rfl, rfl, -⟩ | ⟨rfl, -⟩
  all_goals rfl

/-! ### Predictions and trainings of each strategy -/

section Gshare

variable {p : Widths} {x y : GshareState} (htable : x.table = y.table) (hghr : SameLow p.g.toNat x.ghr y.ghr)
include htable hghr

theorem gsharePredict_congr (pc : Pc) : gsharePredict p pc x = gsharePredict p pc y := by
  simp only [gsharePredict, gIndex, htable, hashIndex_congr hghr]

theorem gshareTrain_same {w w' : Nat} (hg : p.g.toNat ≤ w) (hg' : p.g.toNat ≤ w') (pc : Pc) (o : Direction) :
    SameButHighHistory p (.gshare (gshareTrain w p pc o x)) (.gshare (gshareTrain w' p pc o y)) := by
  refine ⟨?_, lowerBits_shiftIn_congr hg hg' hghr o⟩
  simp only [gshareTrain, gIndex, htable, hashIndex_congr hghr]

end Gshare

section Tournament

variable {p : Widths} {x y : TournamentState}

theorem globalPrediction_congr (hglobal : x.globalTable = y.globalTable) (hghr : SameLow p.g.toNat x.ghr y.ghr)
    (pc : Pc) : globalPrediction p pc x = globalPrediction p pc y := by
  simp only [globalPrediction, gIndex, hglobal, hashIndex_congr hghr]

theorem localPrediction_congr (hlocal : x.localTable = y.localTable)
    (hhist : ∀ i, SameLow p.l.toNat (x.localHist.read i) (y.localHist.read i)) (pc : Pc) :
    localPrediction p pc x = localPrediction p pc y := by
  simp only [localPrediction, hlocal, localIndex_congr hhist]

theorem choicePrediction_congr (hchoice : x.choice = y.choice) (pc : Pc) :
    choicePrediction p pc x = choicePrediction p pc y := by
  simp only [choicePrediction, hchoice]

/-- The shared slot takes the same low bits in, every other slot keeps its own. -/
theorem localHist_write_same {m m' : Memory History} {l w w' : Nat} (hl : l ≤ w) (hl' : l ≤ w')
    (hhist : ∀ i, SameLow l (m.read i) (m'.read i)) (slot : Nat) (o : Direction) (i : Nat) :
    SameLow l ((m.write slot (shiftIn w (m.read slot) o)).read i)
      ((m'.write slot (shiftIn w' (m'.read slot) o)).read i) := by
  rw [read_write, read_write]
  split
  · exact lowerBits_shiftIn_congr hl hl' (hhist slot) o
  · exact hhist i

variable (hglobal : x.globalTable = y.globalTable) (hlocal : x.localTable = y.localTable)
  (hchoice : x.choice = y.choice) (hghr : SameLow p.g.toNat x.ghr y.ghr)
  (hhist : ∀ i, SameLow p.l.toNat (x.localHist.read i) (y.localHist.read i))
include hglobal hlocal hchoice hghr hhist

theorem tournamentPredict_congr (pc : Pc) : tournamentPredict p pc x = tournamentPredict p pc y := by
  unfold tournamentPredict
  rw [globalPrediction_congr hglobal hghr, localPrediction_congr hlocal hhist, choicePrediction_congr hchoice]

theorem tournamentTrain_same {w w' : Nat} (hg : p.g.toNat ≤ w) (hg' : p.g.toNat ≤ w') (hl : p.l.toNat ≤ w)
    (hl' : p.l.toNat ≤ w') (pc : Pc) (o : Direction) :
    SameButHighHistory p (.tournament (tournamentTrain w p pc o x)) (.tournament (tournamentTrain w' p pc o y)) := by
  refine ⟨?_, ?_, ?_, lowerBits_shiftIn_congr hg hg' hghr o, localHist_write_same hl hl' hhist _ o⟩
  · simp only [tournamentTrain, gIndex, hglobal, hashIndex_congr hghr]
  · simp only [tournamentTrain, hlocal, localIndex_congr hhist]
  · simp only [tournamentTrain, hchoice, globalPrediction_congr hglobal hghr, localPrediction_congr hlocal hhist]

end Tournament

section Custom

variable {p : Widths} {x y : CustomState}

theorem baseline_congr (hchoice : x.choice = y.choice) (pc : Pc) : baseline p pc x = baseline p pc y := by
  simp only [baseline, hchoice]

theorem cache_congr (htc : x.tc = y.tc) (hnc : x.nc = y.nc) (n : CacheName) : x.cache n = y.cache n := by
  cases n
  · exact htc
  · exact hnc

variable (hchoice : x.choice = y.choice) (hcache : ∀ n, x.cache n = y.cache n)
  (hghr : SameLow p.c.toNat x.ghr y.ghr)
include hchoice hcache hghr

theorem customPredict_congr (pc : Pc) : customPredict p pc x = customPredict p pc y := by
  simp only [customPredict, baseline_congr hchoice, hcache, cacheIndex_congr hghr]

theorem cache_customTrain_congr (w w' : Nat) (pc : Pc) (o : Direction) (n : CacheName) :
    (customTrain w p pc o x).cache n = (customTrain w' p pc o y).cache n := by
  have hbase : baseline p pc x = baseline p pc y := baseline_congr hchoice pc
  by_cases hn : n = selectCache (baseline p pc y).dir
  · subst hn
    have hx := cacheOf_customTrain w p pc o x
    have hy := cacheOf_customTrain w' p pc o y
    rw [cacheOf_eq_cache_selectCache, cacheOf_eq_cache_selectCache, hbase] at hx
    rw [cacheOf_eq_cache_selectCache, cacheOf_eq_cache_selectCache] at hy
    rw [hx, hy, hcache, cacheIndex_congr hghr]
  · rw [cache_customTrain_other w p pc o x (by rwa [hbase]), cache_customTrain_other w' p pc o y hn, hcache]

theorem customTrain_same {w w' : Nat} (hc : p.c.toNat ≤ w) (hc' : p.c.toNat ≤ w') (pc : Pc) (o : Direction) :
    SameButHighHistory p (.custom (customTrain w p pc o x)) (.custom (customTrain w' p pc o y)) := by
  have hcaches := cache_customTrain_congr hchoice hcache hghr w w' pc o
  refine ⟨?_, hcaches .tc, hcaches .nc, lowerBits_shiftIn_congr hc hc' hghr o⟩
  simp only [customTrain, hchoice]

end Custom

/-! ### Predictions and trainings of whichever engine is active -/

theorem predict_eq_of_same {p : Widths} {e e' : Engine} (h : SameButHighHistory p e e') (pc : Pc) :
    e.predict p pc = e'.predict p pc := by
  rcases sameButHighHistory_cases h with ⟨x, y, rfl, rfl, htable, hghr⟩
      | ⟨x, y, rfl, rfl, hglobal, hlocal, hchoice, hghr, hhist⟩ | ⟨x, y, rfl, rfl, hchoice, htc, hnc, hghr⟩ | ⟨rfl, -⟩
  · exact congrArg some (gsharePredict_congr htable hghr pc)
  · exact congrArg some (tournamentPredict_congr hglobal hlocal hchoice hghr hhist pc)
  · exact congrArg some (customPredict_congr hchoice (cache_congr htc hnc) hghr pc)
  · rfl

/-- The widths an index is cut to are no more than the limits of `lowerBits`: all `Engine.stop` asks but `L <= G`. -/
structure WidthsMeaningful (histW : Nat) (p : Widths) : Prop where
  g : p.g.toNat ≤ indexLimit histW
  l : p.l.toNat ≤ indexLimit histW
  c : p.c.toNat ≤ indexLimit histW
  k : p.k.toNat ≤ 32
  t : p.t.toNat ≤ 32

theorem widthsMeaningful_of_legal {cfg : Config} (hcfg : cfg.wf) {p : Widths} (h : widthsLegal cfg.maxBits p) :
    WidthsMeaningful cfg.histW p := by
  obtain ⟨hg, hl, hc, hk, ht⟩ := h
  exact ⟨le_indexLimit_of_legal hcfg hg, le_indexLimit_of_legal hcfg hl, le_indexLimit_of_legal hcfg hc,
    le_32_of_legal hcfg hk, le_32_of_legal hcfg ht⟩

theorem le_of_le_indexLimit {n histW : Nat} (h : n ≤ indexLimit histW) : n ≤ histW :=
  h.trans (min_le_right _ _)

section Wide

variable {p : Widths} {e e' : Engine} (h : SameButHighHistory p e e') {w w' : Nat} (hw : WidthsMeaningful w p)
  (hw' : WidthsMeaningful w' p)
include h hw hw'

/-- In registers that are wide enough only `L <= G` is left to stop at, and the engines share their widths. -/
theorem stop_eq_of_same : e.stop w p = e'.stop w' p := by
  rcases sameButHighHistory_cases h with ⟨x, y, rfl, rfl, -⟩ | ⟨x, y, rfl, rfl, -⟩ | ⟨x, y, rfl, rfl, -⟩
      | ⟨rfl, hu | rfl⟩
  · simp only [Engine.stop, hw.g, hw'.g]
  · simp only [Engine.stop, hw.g, hw.l, hw'.g, hw'.l]
  · simp only [Engine.stop, hw.c, hw.k, hw.t, hw'.c]
  · rw [stop_of_mode_uninit hu, stop_of_mode_uninit hu]
  · rfl

/-- Both engines are trained, into such engines, or there is no strategy to train. -/
theorem train_same (pc : Pc) (o : Direction) :
    (e.train w p pc o = none ∧ e'.train w' p pc o = none)
      ∨ ∃ u u', e.train w p pc o = some (u, []) ∧ e'.train w' p pc o = some (u', [])
          ∧ SameButHighHistory p u u' := by
  rcases sameButHighHistory_cases h with ⟨x, y, rfl, rfl, htable, hghr⟩
      | ⟨x, y, rfl, rfl, hglobal, hlocal, hchoice, hghr, hhist⟩ | ⟨x, y, rfl, rfl, hchoice, htc, hnc, hghr⟩
      | ⟨rfl, hu | rfl⟩
  · exact .inr ⟨_, _, rfl, rfl,
      gshareTrain_same htable hghr (le_of_le_indexLimit hw.g) (le_of_le_indexLimit hw'.g) pc o⟩
  · refine .inr ⟨.tournament (tournamentTrain w p pc o x), .tournament (tournamentTrain w' p pc o y), ?_, ?_,
      tournamentTrain_same hglobal hlocal hchoice hghr hhist (le_of_le_indexLimit hw.g) (le_of_le_indexLimit hw'.g)
        (le_of_le_indexLimit hw.l) (le_of_le_indexLimit hw'.l) pc o⟩
    · simp only [Engine.train, tournamentTrainDiag_nil]
    · simp only [Engine.train, tournamentTrainDiag_nil]
  · refine .inr ⟨.custom (customTrain w p pc o x), .custom (customTrain w' p pc o y), ?_, ?_,
      customTrain_same hchoice (cache_congr htc hnc) hghr (le_of_le_indexLimit hw.c) (le_of_le_indexLimit hw'.c) pc o⟩
    · simp only [Engine.train, baseline_diag]
    · simp only [Engine.train, baseline_diag]
  · exact .inl ⟨(train_eq_none_iff _ _ _ _ _).mpr hu, (train_eq_none_iff _ _ _ _ _).mpr hu⟩
  · exact .inr ⟨_, _, rfl, rfl, sameButHighHistory_refl p .static⟩

end Wide

/-! ### The operations a command is made of -/

/-- Two such machines that also present the same answer. -/
structure Matched (a b : State) : Prop extends HistoryEquivalent a b where
  rsp : a.rsp = b.rsp
  diagRecords : a.diagRecords = b.diagRecords

/-- Two commands or steps that both answer, matched, or both stop for the same reason. -/
def OutcomesMatched (x y : Host.Outcome State Fault Refusal) : Prop :=
  (∃ a b, x = .next a ∧ y = .next b ∧ Matched a b) ∨ ∃ f, x = .fault f ∧ y = .fault f

theorem outcomesMatched_next {a b : State} (h : Matched a b) : OutcomesMatched (.next a) (.next b) :=
  .inl ⟨a, b, rfl, rfl, h⟩

section Operations

variable {a b : State} (h : HistoryEquivalent a b)
include h

theorem maxBits_eq : a.cfg.maxBits = b.cfg.maxBits := by
  have hmax := congrArg Config.maxBits h.cfg
  exact hmax

theorem mode_eq : a.mode = b.mode := mode_eq_of_same h.engine

/-- The widths of a machine that is `READY` have a meaning in both. -/
theorem widthsMeaningful_of_ready (hready : a.mode = .ready) :
    WidthsMeaningful a.cfg.histW a.widths ∧ WidthsMeaningful b.cfg.histW a.widths :=
  ⟨widthsMeaningful_of_legal h.wideA (h.legal hready),
    widthsMeaningful_of_legal h.wideB (maxBits_eq h ▸ h.legal hready)⟩

/-- A command that forms indices stops in both or in neither. -/
theorem stop_eq (hready : a.mode = .ready) :
    b.engine.stop b.cfg.histW b.widths = a.engine.stop a.cfg.histW a.widths := by
  obtain ⟨hwa, hwb⟩ := widthsMeaningful_of_ready h hready
  rw [← h.widths]
  exact (stop_eq_of_same h.engine hwa hwb).symm

theorem predict_eq (pc : Pc) : b.engine.predict b.widths pc = a.engine.predict a.widths pc := by
  rw [← h.widths]
  exact (predict_eq_of_same h.engine pc).symm

/-- An answer writes the channel's ports, the same in both. -/
theorem respond_matched (st : Status) (diag : List DiagRecord) (d : Direction) :
    Matched (respond st diag d a) (respond st diag d b) :=
  ⟨⟨h.cfg, h.wideA, h.wideB, h.legal, h.widths, h.inputs, rfl, h.freeCount, h.engine⟩, rfl, rfl⟩

/-- The released registers hold the free values of one counter. -/
theorem release_equivalent : HistoryEquivalent (release a) (release b) := by
  obtain ⟨hcfg, hwideA, hwideB, -, -, hinputs, hready, hfree, -⟩ := h
  refine ⟨hcfg, hwideA, hwideB, nofun, ?_, hinputs, hready, congrArg (· + 1) hfree, ?_⟩
  · simp only [release, hfree]
  · simp only [release, hfree]
    exact sameButHighHistory_refl _ _

/-- Another strategy state, with legal widths to go with it. -/
theorem withEngine_equivalent {p p' : Widths} {e e' : Engine} (hlegal : widthsLegal a.cfg.maxBits p) (hp : p = p')
    (he : SameButHighHistory p e e') :
    HistoryEquivalent { a with engine := e, widths := p } { b with engine := e', widths := p' } :=
  ⟨h.cfg, h.wideA, h.wideB, fun _ => hlegal, hp, h.inputs, h.cmdReady, h.freeCount, he⟩

theorem accept_equivalent (rest : List HostInput) : HistoryEquivalent (accept rest a) (accept rest b) :=
  ⟨h.cfg, h.wideA, h.wideB, h.legal, h.widths, rfl, rfl, h.freeCount, h.engine⟩

theorem idle_matched : Matched (idle a) (idle b) :=
  ⟨⟨h.cfg, h.wideA, h.wideB, h.legal, h.widths, h.inputs, rfl, h.freeCount, h.engine⟩, rfl, rfl⟩

theorem hardwareReset_matched (rest : List HostInput) :
    Matched (hardwareReset { a with inputs := rest }) (hardwareReset { b with inputs := rest }) :=
  have hrest : HistoryEquivalent { a with inputs := rest } { b with inputs := rest } :=
    ⟨h.cfg, h.wideA, h.wideB, h.legal, h.widths, rfl, h.cmdReady, h.freeCount, h.engine⟩
  have hrel := release_equivalent hrest
  ⟨⟨hrel.cfg, hrel.wideA, hrel.wideB, hrel.legal, hrel.widths, rfl, rfl, hrel.freeCount, hrel.engine⟩, rfl, rfl⟩

/-! ### Every command -/

/-- No created strategy state depends on `HIST_W`. -/
theorem newEngine_eq (st : Strategy) (p : Widths) : newEngine a.cfg p st = newEngine b.cfg p st := by
  rw [← h.cfg]
  cases st <;> rfl

theorem configurationError_matched : Matched (raise .configurationError a) (raise .configurationError b) :=
  respond_matched (release_equivalent h) _ _ _

theorem exec_initOf_matched (st : Strategy) (p : Widths) :
    OutcomesMatched (exec (initOf st p) a) (exec (initOf st p) b) := by
  rw [exec_initOf, exec_initOf, ← newEngine_eq h]
  refine outcomesMatched_next ?_
  rcases initialise_cases (crossChecked st) (newEngine a.cfg p st) p a with ⟨hlegal, hcross, ha⟩ | ⟨hinvalid, ha⟩
  · rw [ha, initialise_valid _ (maxBits_eq h ▸ hlegal) hcross]
    exact respond_matched (withEngine_equivalent h hlegal rfl (sameButHighHistory_refl p _)) _ _ _
  · rw [ha, initialise_invalid _ (maxBits_eq h ▸ hinvalid)]
    exact configurationError_matched h

theorem exec_predict_matched (pc : Pc) : OutcomesMatched (exec (.predict pc) a) (exec (.predict pc) b) := by
  cases hmode : a.mode with
  | uninit =>
    rw [exec_predict_uninit hmode, exec_predict_uninit ((mode_eq h).symm.trans hmode)]
    exact outcomesMatched_next (respond_matched h .protocolError [] .notTaken)
  | ready =>
    simp only [exec, execPredict, stop_eq h hmode, predict_eq h]
    split
    next f _ => exact .inr ⟨f, rfl, rfl⟩
    next =>
      split
      next => exact outcomesMatched_next (respond_matched h .protocolError [] .notTaken)
      next => exact outcomesMatched_next (respond_matched h _ _ _)

theorem exec_train_matched (pc : Pc) (o : Direction) :
    OutcomesMatched (exec (.train pc o) a) (exec (.train pc o) b) := by
  cases hmode : a.mode with
  | uninit =>
    rw [exec_train_uninit hmode, exec_train_uninit ((mode_eq h).symm.trans hmode)]
    exact outcomesMatched_next (respond_matched h .protocolError [] .notTaken)
  | ready =>
    obtain ⟨hwa, hwb⟩ := widthsMeaningful_of_ready h hmode
    simp only [exec, execTrain, stop_eq h hmode]
    split
    next f _ => exact .inr ⟨f, rfl, rfl⟩
    next =>
      rcases train_same h.engine hwa hwb pc o with ⟨ha, hb⟩ | ⟨u, u', ha, hb, hsame⟩
      · rw [h.widths] at hb
        rw [ha, hb]
        exact outcomesMatched_next (respond_matched h .protocolError [] .notTaken)
      · rw [h.widths] at hb
        rw [ha, hb]
        exact outcomesMatched_next (respond_matched (withEngine_equivalent h (h.legal hmode) h.widths hsame) _ _ _)

theorem exec_teardown_matched : OutcomesMatched (exec .teardown a) (exec .teardown b) := by
  cases hmode : a.mode with
  | uninit =>
    rw [exec_teardown_uninit hmode, exec_teardown_uninit ((mode_eq h).symm.trans hmode)]
    exact outcomesMatched_next (respond_matched h .protocolError [] .notTaken)
  | ready =>
    rw [exec_teardown_ready hmode, exec_teardown_ready ((mode_eq h).symm.trans hmode)]
    exact outcomesMatched_next (respond_matched (release_equivalent h) .ok [] .notTaken)

theorem exec_matched (i : Instr) : OutcomesMatched (exec i a) (exec i b) := by
  cases i with
  | initStatic p => exact exec_initOf_matched h .static p
  | initGshare p => exact exec_initOf_matched h .gshare p
  | initTournament p => exact exec_initOf_matched h .tournament p
  | initCustom p => exact exec_initOf_matched h .custom p
  | initUnrecognised strat p => exact outcomesMatched_next (configurationError_matched h)
  | predict pc => exact exec_predict_matched h pc
  | train pc o => exact exec_train_matched h pc o
  | teardown => exact exec_teardown_matched h

/-! ### Steps and runs -/

/-- What is presented is the same in both, so they take the same step. -/
theorem step_matched : OutcomesMatched (step a) (step b) := by
  simp only [step, fetch, ← h.inputs, ← h.cmdReady]
  cases a.inputs with
  | nil => exact outcomesMatched_next (idle_matched h)
  | cons x rest =>
    cases x with
    | hardwareReset inFlight => exact outcomesMatched_next (hardwareReset_matched h rest)
    | command w =>
      have haccept := accept_equivalent h rest
      cases a.cmdReady with
      | false => exact outcomesMatched_next (idle_matched h)
      | true =>
        cases hd : decode w with
        | ok i => simpa [hd] using exec_matched haccept i
        | error e =>
          simpa [hd] using outcomesMatched_next (respond_matched haccept .illegalCommand [] .notTaken)

end Operations

/-- Settles O54: the two steps answer alike or stop alike, and the first is known to answer. -/
theorem stepKeepsHistoryEquivalent : Obligations.StepKeepsHistoryEquivalent := by
  intro a b a' h hstep
  rcases step_matched h with ⟨u, v, hu, hv, hmatched⟩ | ⟨f, hf, -⟩
  · obtain rfl := Host.Outcome.next.inj (hu.symm.trans hstep)
    exact ⟨v, hv, hmatched.rsp.symm, hmatched.diagRecords.symm, hmatched.toHistoryEquivalent⟩
  · exact absurd (hf.symm.trans hstep) nofun

/-- Settles O53, by induction on the number of steps. -/
theorem highHistoryBitsAreUnobservable : Obligations.HighHistoryBitsAreUnobservable := by
  intro n
  induction n with
  | zero => exact fun _ _ _ => rfl
  | succ n ih =>
    intro a b h
    rcases step_matched h with ⟨a', b', ha, hb, hmatched⟩ | ⟨f, ha, hb⟩
    · rw [observe_of_next n ha, observe_of_next n hb, hmatched.rsp, ih a' b' hmatched.toHistoryEquivalent]
    · rw [observe_of_fault n ha, observe_of_fault n hb]

end Sys2Proof.Proofs.HistoryWidth
